-- ==== Sys2Proof/Word.lean ====
section
/-! DEFINITION. The widths of the machine's values (00_scope.md R5 and the notation section: `UInt8`, `UInt16`, `Nib`). -/

namespace Sys2Proof

/-- An 8-bit cell of main memory or of the register file, and the program counter (`UInt8`). -/
abbrev Byte := BitVec 8

/-- An instruction word and the instruction register (`UInt16`). -/
abbrev Word := BitVec 16

/-- One hexadecimal digit of an instruction word (`Nib`). -/
abbrev Nib := BitVec 4

end Sys2Proof
end

