-- ==== Sys2Proof/Config.lean ====
section
/-! DEFINITION. What is fixed for the machine: the implementation parameters of 00_scope.md R5, and the named parameter
`FloatAdd` of R6 (a). -/

namespace Sys2Proof

/-- `MEM_SIZE`: cells of main memory (R5, R13). -/
abbrev Config.memSize : Nat := 256

/-- `REG_COUNT`: cells of the register file (R5, R14). -/
abbrev Config.regCount : Nat := 16

/-- `INSN_BITS`: the one instruction length (R5, R58). -/
abbrev Config.insnBits : Nat := 16

/-- The float adder of an implementation that does not use the spec's default format (R6 (a), R75): a total function of the
two operand bytes and of nothing else. FREE: it has no body, so nothing about its values can be proved (log 2). -/
opaque Config.floatAdd : Byte → Byte → Byte

/-- Which `FloatAdd` the machine has (R6 (a)): the spec's `FloatAdd_default` (R74), or the implementation's own (R75). -/
inductive FloatAddParam where
  /-- `FloatAdd = FloatAdd_default`, R72 to R74. -/
  | default
  /-- `FloatAdd` is `Config.floatAdd`, of which only R75 is known. -/
  | implementation
  deriving DecidableEq, Repr

end Sys2Proof
end

