-- ==== Sys2Proof/Syntax.lean ====
section
/-! DEFINITION. The instructions, one constructor per row of the opcode map (30_encoding.md R55), and the instruction
source a program comes from (10_state.md R32). Nibbles the spec ignores (R56) are no operands, so they are not in a term. -/

namespace Sys2Proof

/-- The 16 instructions (R22, R55). Operands stand in the order the spec writes them (R49 to R53). -/
inductive Instr where
  /-- Opcode 0, no operands (R64). -/
  | nop0
  /-- Opcode 1, form RXY: destination register, memory address (R67). -/
  | loadm (r : Nib) (xy : Byte)
  /-- Opcode 2, form RXY: destination register, immediate (R68). -/
  | loadi (r : Nib) (xy : Byte)
  /-- Opcode 3, form RXY: source register, memory address (R69). -/
  | store (r : Nib) (xy : Byte)
  /-- Opcode 4, form 0RS: SOURCE register `r`, DESTINATION register `d` (the spec's S) (R51, R70). -/
  | move (r d : Nib)
  /-- Opcode 5, form RST: destination, the two sources (R71). -/
  | addi (r a b : Nib)
  /-- Opcode 6, form RST (R76). -/
  | addf (r a b : Nib)
  /-- Opcode 7, form RST (R77). -/
  | or (r a b : Nib)
  /-- Opcode 8, form RST (R78). -/
  | and (r a b : Nib)
  /-- Opcode 9, form RST (R79). -/
  | xor (r a b : Nib)
  /-- Opcode A, form R0X: the register rotated in place, the count 0 to 15 (R80). -/
  | ror (r x : Nib)
  /-- Opcode B, form RXY: register compared with R0, jump target (R82). -/
  | jeq (r : Nib) (xy : Byte)
  /-- Opcode C, no operands (R83). -/
  | halt
  /-- Opcode D, form RXY: register compared with R0, jump target (R84). -/
  | jgt (r : Nib) (xy : Byte)
  /-- Opcode E, no operands (R65). -/
  | nope
  /-- Opcode F, no operands (R66). -/
  | nopf
  deriving DecidableEq, Repr

/-- The parameter `InstrSource` (R6 (b), R32): where the Driver takes the word of the next `execute` call from. -/
inductive InstrSource where
  /-- `Stream`: the program file's words in file order, split into those passed since reset and those not yet passed: `ws` is
  `passed ++ pending`, and the next call is the k-th for `k = passed.length`. -/
  | stream (passed pending : List Word)
  /-- `PcIndexed(prog, n)`: the read-only program store, `n` its length, indexed by `pc`. -/
  | pcIndexed (prog : List Word)
  deriving DecidableEq, Repr

end Sys2Proof
end

