-- ==== Sys2Proof/WellFormed.lean ====
section
/-! DEFINITION. Well-formedness. Every bound on an instruction's operand (R5, R42, R54) is carried by the operand's type, so no
instruction is ill-formed, as R9 says of words. The one check the spec makes on a program is the length of a `PcIndexed` program store (R32, D13). -/

namespace Sys2Proof

/-- Every instruction is well-formed: register operands are nibbles 0 to 15, XY is a byte 0 to 255, the rotate count is a nibble,
and each of these values is legal (R9, R37, R42, R54). -/
def Instr.wellFormed : Instr → Bool
  | .nop0 => true
  | .loadm _ _ => true
  | .loadi _ _ => true
  | .store _ _ => true
  | .move _ _ => true
  | .addi _ _ _ => true
  | .addf _ _ _ => true
  | .or _ _ _ => true
  | .and _ _ _ => true
  | .xor _ _ _ => true
  | .ror _ _ => true
  | .jeq _ _ => true
  | .halt => true
  | .jgt _ _ => true
  | .nope => true
  | .nopf => true

/-- A program store holds 1 to 256 words; a stream may hold any number (R32, D13). -/
def InstrSource.wellFormed : InstrSource → Bool
  | .stream _ _ => true
  | .pcIndexed prog => decide (1 ≤ prog.length ∧ prog.length ≤ 256)

end Sys2Proof
end

