-- ==== Sys2Proof/Decode.lean ====
section
/-! DEFINITION. Decoding and encoding (30_encoding.md R47 to R59, 00_scope.md R8, R9). A word reaches the core as one 16-bit
value (R36), so the decoder reads a `Word`; the textual form, four hexadecimal digits, is read beside it and rejects by name. -/

namespace Sys2Proof

/-! ### The fields of a word (R47) -/

/-- `op = w[15:12]`. -/
def opNibble (w : Word) : Nib := w.extractLsb' 12 4
/-- `n2 = w[11:8]`. -/
def nibble2 (w : Word) : Nib := w.extractLsb' 8 4
/-- `n1 = w[7:4]`. -/
def nibble1 (w : Word) : Nib := w.extractLsb' 4 4
/-- `n0 = w[3:0]`. -/
def nibble0 (w : Word) : Nib := w.extractLsb' 0 4
/-- `XY = w[7:0] = {n1, n0}`. -/
def lowByte (w : Word) : Byte := w.extractLsb' 0 8

/-- The instruction of a word: the opcode alone selects it (R48), its form places the operands (R49 to R53). Total (R9): the
last arm is opcode 15, the one nibble left. -/
def decode (w : Word) : Instr :=
  match (opNibble w).toNat with
  | 0 => .nop0
  | 1 => .loadm (nibble2 w) (lowByte w)
  | 2 => .loadi (nibble2 w) (lowByte w)
  | 3 => .store (nibble2 w) (lowByte w)
  | 4 => .move (nibble1 w) (nibble0 w)
  | 5 => .addi (nibble2 w) (nibble1 w) (nibble0 w)
  | 6 => .addf (nibble2 w) (nibble1 w) (nibble0 w)
  | 7 => .or (nibble2 w) (nibble1 w) (nibble0 w)
  | 8 => .and (nibble2 w) (nibble1 w) (nibble0 w)
  | 9 => .xor (nibble2 w) (nibble1 w) (nibble0 w)
  | 10 => .ror (nibble2 w) (nibble0 w)
  | 11 => .jeq (nibble2 w) (lowByte w)
  | 12 => .halt
  | 13 => .jgt (nibble2 w) (lowByte w)
  | 14 => .nope
  | _ => .nopf

/-- The instruction of the word whose `nbits` bits are `w`, the bits above them 0. A longer word is no instruction (R58). -/
def decodeTableWord (nbits w : Nat) : Option Instr :=
  if nbits ≤ Config.insnBits then some (decode (BitVec.ofNat 16 (w % 2 ^ nbits))) else none

/-! ### Encoding -/

/-- A word from its four nibbles, the first the most significant (R47). -/
def wordOfNibbles (op n2 n1 n0 : Nib) : Word := op ++ n2 ++ n1 ++ n0

/-- A word of form RXY (R49). -/
def wordRXY (op r : Nib) (xy : Byte) : Word := op ++ r ++ xy

/-- The word of an instruction, the nibbles without a role written 0 as the source writes them (R49 to R53, R55, R56). -/
def encode : Instr → Word
  | .nop0 => wordOfNibbles 0 0 0 0
  | .loadm r xy => wordRXY 1 r xy
  | .loadi r xy => wordRXY 2 r xy
  | .store r xy => wordRXY 3 r xy
  | .move r d => wordOfNibbles 4 0 r d
  | .addi r a b => wordOfNibbles 5 r a b
  | .addf r a b => wordOfNibbles 6 r a b
  | .or r a b => wordOfNibbles 7 r a b
  | .and r a b => wordOfNibbles 8 r a b
  | .xor r a b => wordOfNibbles 9 r a b
  | .ror r x => wordOfNibbles 10 r 0 x
  | .jeq r xy => wordRXY 11 r xy
  | .halt => wordOfNibbles 12 0 0 0
  | .jgt r xy => wordRXY 13 r xy
  | .nope => wordOfNibbles 14 0 0 0
  | .nopf => wordOfNibbles 15 0 0 0

/-- The bits of an instruction's word that have no role (R51, R52, R53, R56). -/
def ignoredMask : Instr → Word
  | .nop0 => 0x0FFF
  | .loadm _ _ => 0x0000
  | .loadi _ _ => 0x0000
  | .store _ _ => 0x0000
  | .move _ _ => 0x0F00
  | .addi _ _ _ => 0x0000
  | .addf _ _ _ => 0x0000
  | .or _ _ _ => 0x0000
  | .and _ _ _ => 0x0000
  | .xor _ _ _ => 0x0000
  | .ror _ _ => 0x00F0
  | .jeq _ _ => 0x0000
  | .halt => 0x0FFF
  | .jgt _ _ => 0x0000
  | .nope => 0x0FFF
  | .nopf => 0x0FFF

/-! ### The opcode map (R55) -/

/-- A row of the opcode map. -/
structure OpcodeRow where
  op : Nib
  pattern : Word
  mask : Word
  mnemonic : String
  deriving DecidableEq, Repr

/-- A word is of a row when its masked bits are the row's pattern. -/
def OpcodeRow.covers (row : OpcodeRow) (w : Word) : Bool := w &&& row.mask == row.pattern

/-- The 16 rows, in the source's order. It is also the dispatch table's list of entries (R22). -/
def opcodeMap : List OpcodeRow :=
  [⟨0x0, 0x0000, 0xF000, "NOP0"⟩, ⟨0x1, 0x1000, 0xF000, "LOADM"⟩, ⟨0x2, 0x2000, 0xF000, "LOADI"⟩,
    ⟨0x3, 0x3000, 0xF000, "STORE"⟩, ⟨0x4, 0x4000, 0xF000, "MOVE"⟩, ⟨0x5, 0x5000, 0xF000, "ADDI"⟩,
    ⟨0x6, 0x6000, 0xF000, "ADDF"⟩, ⟨0x7, 0x7000, 0xF000, "OR"⟩] ++
  [⟨0x8, 0x8000, 0xF000, "AND"⟩, ⟨0x9, 0x9000, 0xF000, "XOR"⟩, ⟨0xA, 0xA000, 0xF000, "ROR"⟩,
    ⟨0xB, 0xB000, 0xF000, "JEQ"⟩, ⟨0xC, 0xC000, 0xF000, "HALT"⟩, ⟨0xD, 0xD000, 0xF000, "JGT"⟩,
    ⟨0xE, 0xE000, 0xF000, "NOPE"⟩, ⟨0xF, 0xF000, 0xF000, "NOPF"⟩]

/-- The spec's mnemonic of an instruction (R55, D16: a name only). -/
def Instr.mnemonic : Instr → String
  | .nop0 => "NOP0"
  | .loadm _ _ => "LOADM"
  | .loadi _ _ => "LOADI"
  | .store _ _ => "STORE"
  | .move _ _ => "MOVE"
  | .addi _ _ _ => "ADDI"
  | .addf _ _ _ => "ADDF"
  | .or _ _ _ => "OR"
  | .and _ _ _ => "AND"
  | .xor _ _ _ => "XOR"
  | .ror _ _ => "ROR"
  | .jeq _ _ => "JEQ"
  | .halt => "HALT"
  | .jgt _ _ => "JGT"
  | .nope => "NOPE"
  | .nopf => "NOPF"

/-! ### The textual form (R8, R59) -/

/-- Why a text is no instruction. Raised by `parseWord` only, before the engine: the Driver retries or skips the line, and nothing
reaches the core (R28, R85 first row). -/
inductive TextError where
  /-- The text does not have exactly four characters. -/
  | wrongLength
  /-- Some character is no hexadecimal digit. -/
  | notHexDigit
  deriving DecidableEq, Repr

/-- The value of a hexadecimal digit, in either case (R59). -/
def hexValue (c : Char) : Option Nib :=
  let n := c.toNat
  if 48 ≤ n ∧ n ≤ 57 then some (BitVec.ofNat 4 (n - 48))
  else if 65 ≤ n ∧ n ≤ 70 then some (BitVec.ofNat 4 (n - 55))
  else if 97 ≤ n ∧ n ≤ 102 then some (BitVec.ofNat 4 (n - 87))
  else none

/-- The word of a text of exactly four hexadecimal digits, the first digit bits 15 to 12 (R8). -/
def parseWord : List Char → Except TextError Word
  | [c3, c2, c1, c0] =>
    match hexValue c3, hexValue c2, hexValue c1, hexValue c0 with
    | some op, some n2, some n1, some n0 => .ok (wordOfNibbles op n2 n1 n0)
    | _, _, _, _ => .error .notHexDigit
  | _ => .error .wrongLength

/-- The instruction a line of a program file stands for. -/
def decodeText (cs : List Char) : Except TextError Instr :=
  match parseWord cs with
  | .ok w => .ok (decode w)
  | .error e => .error e

/-- The upper-case hexadecimal digit of a nibble. -/
def hexDigit (n : Nib) : Char :=
  if n.toNat < 10 then Char.ofNat (48 + n.toNat) else Char.ofNat (55 + n.toNat)

/-- The four upper-case digits of a word, as the spec writes words (00_scope.md, notation). -/
def wordText (w : Word) : List Char :=
  [hexDigit (opNibble w), hexDigit (nibble2 w), hexDigit (nibble1 w), hexDigit (nibble0 w)]

/-- Two upper-case digits of a byte after `0x`. -/
def byteText (v : Byte) : String :=
  "0x" ++ String.ofList [hexDigit (v.extractLsb' 4 4), hexDigit (v.extractLsb' 0 4)]

/-- A register's name R0 to RF (R14). -/
def regText (r : Nib) : String := "R" ++ String.ofList [hexDigit r]

/-- The spec's own notation of an instruction (R59, D16: for readability, it carries no semantics). A MOVE is written destination first. -/
def Instr.asmText (i : Instr) : String :=
  match i with
  | .nop0 => i.mnemonic
  | .loadm r xy => i.mnemonic ++ " " ++ regText r ++ ", [" ++ byteText xy ++ "]"
  | .loadi r xy => i.mnemonic ++ " " ++ regText r ++ ", " ++ byteText xy
  | .store r xy => i.mnemonic ++ " " ++ regText r ++ ", [" ++ byteText xy ++ "]"
  | .move r d => i.mnemonic ++ " " ++ regText d ++ ", " ++ regText r
  | .addi r a b => i.mnemonic ++ " " ++ regText r ++ ", " ++ regText a ++ ", " ++ regText b
  | .addf r a b => i.mnemonic ++ " " ++ regText r ++ ", " ++ regText a ++ ", " ++ regText b
  | .or r a b => i.mnemonic ++ " " ++ regText r ++ ", " ++ regText a ++ ", " ++ regText b
  | .and r a b => i.mnemonic ++ " " ++ regText r ++ ", " ++ regText a ++ ", " ++ regText b
  | .xor r a b => i.mnemonic ++ " " ++ regText r ++ ", " ++ regText a ++ ", " ++ regText b
  | .ror r x => i.mnemonic ++ " " ++ regText r ++ ", " ++ toString x.toNat
  | .jeq r xy => i.mnemonic ++ " " ++ regText r ++ ", " ++ byteText xy
  | .halt => i.mnemonic
  | .jgt r xy => i.mnemonic ++ " " ++ regText r ++ ", " ++ byteText xy
  | .nope => i.mnemonic
  | .nopf => i.mnemonic

end Sys2Proof
end

