-- ==== Sys2Proof/Machine/State.lean ====
section
/-! DEFINITION. The machine's state (10_state.md R10 to R26), what a handler answers (40_engine_dispatch.md R61), why a step can stop, and the state after reset (R96). -/

namespace Sys2Proof.Machine

/-- A Storage of `n` cells of 8 bits, addressed 0 to n-1 (R10). Cells are listed by address, strictly rising, and only where they do not
hold 0x00: an unlisted cell reads 0x00, the value every cell has at machine start (R12). `Storage.wf` says the form holds. -/
structure Storage (n : Nat) where
  cells : List Host.Cell
  deriving DecidableEq, Repr

/-- The zero-initialised Storage (R12). -/
def Storage.zero (n : Nat) : Storage n := ⟨[]⟩

/-- The canonical form: addresses strictly rising, each in [0, n), no listed cell equal to what an unlisted one reads as. -/
abbrev Storage.wf {n : Nat} (m : Storage n) : Prop :=
  m.cells.Pairwise (fun c d => c.1 < d.1) ∧ ∀ c ∈ m.cells, c.1 < n ∧ c.2 ≠ 0

/-- Main memory, 256 cells (R13). -/
abbrev Memory := Storage Config.memSize

/-- The register file, 16 cells: "simply a Storage of size 16" (R10, R14). -/
abbrev RegFile := Storage Config.regCount

/-- Main memory is in canonical form. -/
abbrev Memory.wf (m : Memory) : Prop := Storage.wf m

/-- The engine's run state (R21). -/
inductive RunState where
  | running
  | halted
  deriving DecidableEq, Repr

/-- The whole state: the tuple of R25, and the two named parameters of R6, which the step reads. -/
structure State where
  /-- RUNNING or HALTED (R21). -/
  run : RunState
  /-- The program counter (R18). -/
  pc : Byte
  /-- The instruction register (R20). -/
  ir : Word
  /-- The register file R0 to RF (R14). -/
  x : RegFile
  /-- Main memory (R13). -/
  mem : Memory
  /-- The parameter `InstrSource`: the Driver's side, no architectural state (R6 (b), R32; log 1). -/
  source : InstrSource
  /-- The parameter `FloatAdd`, the same at every step (R6 (a), R75; log 2). -/
  floatAdd : FloatAddParam
  deriving DecidableEq, Repr

/-- What a handler asks of the program counter (R61). -/
inductive NextPc where
  | advance
  | set (target : Byte)
  deriving DecidableEq, Repr

/-- What a handler answers (R61). -/
structure HandlerResult where
  x : RegFile
  mem : Memory
  pc : NextPc
  halt : Bool
  deriving DecidableEq, Repr

/-- The states from which there is no step. Neither is an exception of the core, which has none (R85). -/
inductive Fault where
  /-- Raised by `execute` and `step` when `run = HALTED`: the call is Rejected and nothing changes (R63, I10). Safe: no step is invented. -/
  | halted
  /-- Raised by `step` when the core is running and the instruction source has no next word: the run has ended Exhausted (R33 (b)).
  Safe: no word is invented. -/
  | exhausted
  deriving DecidableEq, Repr

/-- Why an instruction has no meaning. -/
inductive Refusal where
  /-- An arm of `exec` not written yet, by its mnemonic. No arm raises it now. Safe. -/
  | notModelled (mnemonic : String)
  deriving DecidableEq, Repr

/-- The state after `reset()` (R96). The two parameters: no program supplied yet (log 1), the default float (R76; log 2). -/
def State.reset : State where
  run := .running
  pc := 0x00
  ir := 0x0000
  x := Storage.zero Config.regCount
  mem := Storage.zero Config.memSize
  source := .stream [] []
  floatAdd := .default

end Sys2Proof.Machine
end

