-- ==== Sys2Proof/Machine/Float.lean ====
section
/-! DEFINITION. The 8-bit floating-point format of opcode 6: the spec's default (42_arith_logic.md R72 to R74) and the parameter `FloatAdd` (R75). -/

namespace Sys2Proof.Machine

/-- The sign bit `b[7]` (R72). -/
def floatSign (b : Byte) : Bool := b.getLsbD 7
/-- The exponent field `b[6:4]`, excess-4 (R72). -/
def floatExponent (b : Byte) : Nat := (b.extractLsb' 4 3).toNat
/-- The mantissa `b[3:0]`, the binary point to its left, no hidden bit (R72). -/
def floatMantissa (b : Byte) : Nat := (b.extractLsb' 0 4).toNat

/-- `FloatUnits(b) = 256 * FloatDecode(b) = (-1)^s * m * 2^e`, an integer (R72). -/
def floatUnits (b : Byte) : Int :=
  (if floatSign b then -1 else 1) * ((floatMantissa b : Int) * 2 ^ floatExponent b)

/-- `FloatDecode(b) = (-1)^s * (m / 16) * 2^(e - 4)` (R72). -/
def floatDecode (b : Byte) : Rat :=
  (if floatSign b then -1 else 1) * ((floatMantissa b : Rat) / 16) * (2 : Rat) ^ ((floatExponent b : Int) - 4)

/-- The least `e` in 0..7 with `(K >> e) <= 15` (R73). -/
def leastExponent (k : Nat) : Nat := ((List.range 8).find? (fun e => k >>> e ≤ 15)).getD 7

/-- The byte of a sign, an exponent field and a mantissa. -/
def floatByte (s : Bool) (e m : Nat) : Byte := BitVec.ofBool s ++ BitVec.ofNat 3 e ++ BitVec.ofNat 4 m

/-- `FloatEncode(k)`, `k` in units of 2^-8: zero is +0, saturation at 7.5, else the most precise exponent and truncation toward zero (R73). -/
def floatEncode (k : Int) : Byte :=
  if k = 0 then 0x00
  else if 1920 ≤ k.natAbs then floatByte (decide (k < 0)) 7 15
  else floatByte (decide (k < 0)) (leastExponent k.natAbs) (k.natAbs >>> leastExponent k.natAbs)

/-- `FloatAdd_default(a, b)`: the exact sum, rounded once (R74). -/
def floatAddDefault (a b : Byte) : Byte := floatEncode (floatUnits a + floatUnits b)

/-- `FloatAdd`, as the machine's parameter selects it (R6 (a), R75). -/
def floatAddOf : FloatAddParam → Byte → Byte → Byte
  | .default, a, b => floatAddDefault a b
  | .implementation, a, b => Config.floatAdd a b

end Sys2Proof.Machine
end

