-- ==== Sys2Proof/Machine/Ops.lean ====
section
/-! DEFINITION. The named operations over Storage (10_state.md R11), over registers and memory, and over a handler's answer
(40_engine_dispatch.md R60 to R62). The core takes no exception and returns from none (60_exceptions.md R85, R88, R89), so there is
no operation for either. -/

namespace Sys2Proof.Machine

/-! ### The list of a Storage's cells -/

/-- The byte listed at an address, 0x00 where none is. -/
def cellsGet : List Host.Cell → Nat → Byte
  | [], _ => 0x00
  | (b, v) :: rest, a => if b = a then v else cellsGet rest a

/-- The list without an address. -/
def cellsErase : List Host.Cell → Nat → List Host.Cell
  | [], _ => []
  | (b, v) :: rest, a => if b = a then cellsErase rest a else (b, v) :: cellsErase rest a

/-- The list with a cell put before the first higher address. -/
def cellsInsert : List Host.Cell → Nat → Byte → List Host.Cell
  | [], a, v => [(a, v)]
  | (b, u) :: rest, a, v => if a < b then (a, v) :: (b, u) :: rest else (b, u) :: cellsInsert rest a v

/-- The list with an address's byte replaced; 0x00 is not listed. -/
def cellsSet (cells : List Host.Cell) (a : Nat) (v : Byte) : List Host.Cell :=
  if v = 0x00 then cellsErase cells a else cellsInsert (cellsErase cells a) a v

/-! ### Storage (R11) -/

/-- An address is in [0, n). -/
abbrev inRange (n : Nat) (a : Int) : Prop := 0 ≤ a ∧ a < n

/-- The cell an address names: itself in [0, n), none outside. The address is any integer (D23, log 10). -/
def cellIndex (n : Nat) : Int → Option Nat
  | .ofNat k => if k < n then some k else none
  | .negSucc _ => none

/-- `Storage.read(addr)`: the cell, or 0 outside [0, N). -/
def Storage.read {n : Nat} (m : Storage n) (a : Int) : Byte :=
  match cellIndex n a with
  | some k => cellsGet m.cells k
  | none => 0x00

/-- `Storage.write(addr, b)`: replaces the cell, or changes nothing outside [0, N). -/
def Storage.write {n : Nat} (m : Storage n) (a : Int) (v : Byte) : Storage n :=
  match cellIndex n a with
  | some k => ⟨cellsSet m.cells k v⟩
  | none => m

/-- `Storage.size()`. -/
def Storage.size {n : Nat} (_ : Storage n) : Nat := n

/-! ### Registers and memory as instructions reach them -/

/-- The Storage address of a register nibble: itself (R42, R54). -/
def regIndex (r : Nib) : Int := r.toNat

/-- The Storage address of XY: itself, unsigned, with no base, index or scaling (R42, R54). -/
def byteAddr (xy : Byte) : Int := xy.toNat

/-- `x[r]`. -/
def readReg (s : State) (r : Nib) : Byte := s.x.read (regIndex r)

/-- `MemRead(xy, 1)`. -/
def readByte (s : State) (xy : Byte) : Byte := s.mem.read (byteAddr xy)

/-! ### What a handler answers (R61) -/

/-- The handler writes one register and advances. -/
def answerReg (s : State) (r : Nib) (v : Byte) : HandlerResult :=
  { x := s.x.write (regIndex r) v, mem := s.mem, pc := .advance, halt := false }

/-- The handler writes one byte of memory and advances: `MemWrite(xy, 1, v)`. -/
def answerByte (s : State) (xy : Byte) (v : Byte) : HandlerResult :=
  { x := s.x, mem := s.mem.write (byteAddr xy) v, pc := .advance, halt := false }

/-- The no-op handler. -/
def answerNothing (s : State) : HandlerResult :=
  { x := s.x, mem := s.mem, pc := .advance, halt := false }

/-- The handler of a jump: `Set(target)` where the condition holds, `Advance` where it does not (R81). -/
def answerJump (s : State) (taken : Bool) (target : Byte) : HandlerResult :=
  { x := s.x, mem := s.mem, pc := if taken then .set target else .advance, halt := false }

/-- The handler of HALT. -/
def answerHalt (s : State) : HandlerResult :=
  { x := s.x, mem := s.mem, pc := .advance, halt := true }

/-! ### The engine's part of a step (R60) -/

/-- `advance`: pc + 1 modulo 256 (R62; the wrap is decision D2, log 4). -/
def advancePc (pc : Byte) : Byte := pc + 1

/-- The program counter after a handler's request. -/
def nextPc (pc : Byte) : NextPc → Byte
  | .advance => advancePc pc
  | .set target => target

/-- The engine applies a handler's answer: the storages, then `pc` and `run` (R26, R60). HALT leaves `pc` (decision D3, log 5).
R60 runs with `run = RUNNING`, so leaving `run` where nothing halts is its `RUNNING`. -/
def commit (h : HandlerResult) (s : State) : State :=
  { s with
    x := h.x
    mem := h.mem
    run := if h.halt then .halted else s.run
    pc := if h.halt then s.pc else nextPc s.pc h.pc }

/-- A handler never stops the machine with an error: its answer is applied and the step is over (R39, R85). -/
def finish (h : HandlerResult) (s : State) : Host.Outcome State Fault Refusal := .next (commit h s)

/-- `ir <- w` (R20, R60; decision D4, log 7). -/
def setIr (w : Word) (s : State) : State := { s with ir := w }

/-- The Driver's side: another instruction source. -/
def setSource (src : InstrSource) (s : State) : State := { s with source := src }

end Sys2Proof.Machine
end

