-- ==== Sys2Proof/Machine/Operands.lean ====
section
/-! DEFINITION. The operand forms (30_encoding.md R49 to R54): what an operand names, read from the state as it was when the step began (R26). -/

namespace Sys2Proof.Machine

/-- A register operand R, S or T: the byte in that register (R15: none is hard-wired). -/
def regOperand (s : State) (r : Nib) : Byte := readReg s r

/-- XY as a memory address: direct addressing, the only mode (41_data_movement.md). -/
def memOperand (s : State) (xy : Byte) : Byte := readByte s xy

/-- XY as an immediate: the unsigned byte as it stands, not extended (R54). -/
def immOperand (xy : Byte) : Byte := xy

/-- XY as a jump target: the absolute value (R81). -/
def targetOperand (xy : Byte) : Byte := xy

/-- X as a rotate count: the unsigned nibble (R54). -/
def countOperand (x : Nib) : Nat := x.toNat

/-- R0, the implicit second operand of the jumps (R15, R82, R84). -/
def comparisonBase (s : State) : Byte := readReg s 0

end Sys2Proof.Machine
end

