-- ==== Sys2Proof/Machine/ArithLogic.lean ====
section
/-! DEFINITION. Arithmetic and logic, opcodes 5 to A (42_arith_logic.md R71, R76 to R80). -/

namespace Sys2Proof.Machine

/-- `(a + b) mod 256` (R7, R71). -/
def addBytes (a b : Byte) : Byte := a + b

/-- `rotr8(v, n)`: k = n mod 8, and `((v >> k) OR (v << (8 - k))) AND 0xFF`, or v for k = 0 (R80). -/
def rotr8 (v : Byte) (n : Nat) : Byte :=
  if n % 8 = 0 then v else (v >>> (n % 8)) ||| (v <<< (8 - n % 8))

/-- ADDI: `x[R] <- (x[S] + x[T]) mod 256` (R71). -/
def execAddi (r a b : Nib) (s : State) : Host.Outcome State Fault Refusal :=
  finish (answerReg s r (addBytes (regOperand s a) (regOperand s b))) s

/-- ADDF: `x[R] <- FloatAdd(x[S], x[T])` (R76). -/
def execAddf (r a b : Nib) (s : State) : Host.Outcome State Fault Refusal :=
  finish (answerReg s r (floatAddOf s.floatAdd (regOperand s a) (regOperand s b))) s

/-- OR, bitwise (R77). -/
def execOr (r a b : Nib) (s : State) : Host.Outcome State Fault Refusal :=
  finish (answerReg s r (regOperand s a ||| regOperand s b)) s

/-- AND, bitwise (R78, C10). -/
def execAnd (r a b : Nib) (s : State) : Host.Outcome State Fault Refusal :=
  finish (answerReg s r (regOperand s a &&& regOperand s b)) s

/-- XOR, bitwise (R79, C10). -/
def execXor (r a b : Nib) (s : State) : Host.Outcome State Fault Refusal :=
  finish (answerReg s r (regOperand s a ^^^ regOperand s b)) s

/-- ROR: `x[R] <- rotr8(x[R], X)` (R80). -/
def execRor (r x : Nib) (s : State) : Host.Outcome State Fault Refusal :=
  finish (answerReg s r (rotr8 (regOperand s r) (countOperand x))) s

end Sys2Proof.Machine
end

