-- ==== Sys2Proof/Machine/Flags.lean ====
section
/-! DEFINITION. The machine has no flags (10_state.md R23): no instruction computes one, and carry and overflow leave no trace
(42_arith_logic.md R71). What stands in their place are the comparisons the jumps make between two registers. -/

namespace Sys2Proof.Machine

/-- JEQ's condition: equality of the 8 bits (R82). -/
def isEqual (a b : Byte) : Bool := a == b

/-- JGT's condition: `a > b`, both read as unsigned 0..255 (R84, C11). -/
def isGreaterUnsigned (a b : Byte) : Bool := decide (b.toNat < a.toNat)

end Sys2Proof.Machine
end

