-- ==== Sys2Proof/Machine/Control.lean ====
section
/-! DEFINITION. Control transfer and HALT, opcodes B, C and D (43_control.md R81 to R84). -/

namespace Sys2Proof.Machine

/-- JEQ: to XY if `x[R] = x[0]`, else advance (R82). -/
def execJeq (r : Nib) (xy : Byte) (s : State) : Host.Outcome State Fault Refusal :=
  finish (answerJump s (isEqual (regOperand s r) (comparisonBase s)) (targetOperand xy)) s

/-- HALT: `run <- HALTED`, `pc`, `x`, `mem` unchanged (R83; decision D3, log 5). -/
def execHalt (s : State) : Host.Outcome State Fault Refusal := finish (answerHalt s) s

/-- JGT: to XY if `x[R] > x[0]` unsigned, else advance (R84). -/
def execJgt (r : Nib) (xy : Byte) (s : State) : Host.Outcome State Fault Refusal :=
  finish (answerJump s (isGreaterUnsigned (regOperand s r) (comparisonBase s)) (targetOperand xy)) s

end Sys2Proof.Machine
end

