-- ==== Sys2Proof/Machine/DataMovement.lean ====
section
/-! DEFINITION. Data movement, opcodes 1 to 4 (41_data_movement.md R67 to R70). -/

namespace Sys2Proof.Machine

/-- LOADM: `x[R] <- MemRead(XY, 1)` (R67). -/
def execLoadm (r : Nib) (xy : Byte) (s : State) : Host.Outcome State Fault Refusal :=
  finish (answerReg s r (memOperand s xy)) s

/-- LOADI: `x[R] <- XY` (R68). -/
def execLoadi (r : Nib) (xy : Byte) (s : State) : Host.Outcome State Fault Refusal :=
  finish (answerReg s r (immOperand xy)) s

/-- STORE: `MemWrite(XY, 1, x[R])` (R69). -/
def execStore (r : Nib) (xy : Byte) (s : State) : Host.Outcome State Fault Refusal :=
  finish (answerByte s xy (regOperand s r)) s

/-- MOVE: `x[S] <- x[R]`, R the source and S (here `d`) the destination (R51, R70). -/
def execMove (r d : Nib) (s : State) : Host.Outcome State Fault Refusal :=
  finish (answerReg s d (regOperand s r)) s

end Sys2Proof.Machine
end

