-- ==== Sys2Proof/Machine/Nop.lean ====
section
/-! DEFINITION. The unassigned opcodes 0, E and F (40_engine_dispatch.md R64 to R66). -/

namespace Sys2Proof.Machine

/-- NOP0, opcode 0 (R64). -/
def execNop0 (s : State) : Host.Outcome State Fault Refusal := finish (answerNothing s) s

/-- NOPE, opcode E (R65). -/
def execNope (s : State) : Host.Outcome State Fault Refusal := finish (answerNothing s) s

/-- NOPF, opcode F (R66). -/
def execNopf (s : State) : Host.Outcome State Fault Refusal := finish (answerNothing s) s

end Sys2Proof.Machine
end

