-- ==== Sys2Proof/Machine/Dispatch.lean ====
section
/-! DEFINITION. The dispatch table's handlers (10_state.md R22): one arm per instruction, each the effect of its handler with the
engine's `pc` and `run` update (40_engine_dispatch.md R60). The precondition RUNNING and the write of `ir` are `execute`'s. -/

namespace Sys2Proof.Machine

def exec (i : Instr) (s : State) : Host.Outcome State Fault Refusal :=
  match i with
  | .nop0 => Sys2Proof.Machine.execNop0 s
  | .loadm r xy => Sys2Proof.Machine.execLoadm r xy s
  | .loadi r xy => Sys2Proof.Machine.execLoadi r xy s
  | .store r xy => Sys2Proof.Machine.execStore r xy s
  | .move r d => Sys2Proof.Machine.execMove r d s
  | .addi r a b => Sys2Proof.Machine.execAddi r a b s
  | .addf r a b => Sys2Proof.Machine.execAddf r a b s
  | .or r a b => Sys2Proof.Machine.execOr r a b s
  | .and r a b => Sys2Proof.Machine.execAnd r a b s
  | .xor r a b => Sys2Proof.Machine.execXor r a b s
  | .ror r x => Sys2Proof.Machine.execRor r x s
  | .jeq r xy => Sys2Proof.Machine.execJeq r xy s
  | .halt => Sys2Proof.Machine.execHalt s
  | .jgt r xy => Sys2Proof.Machine.execJgt r xy s
  | .nope => Sys2Proof.Machine.execNope s
  | .nopf => Sys2Proof.Machine.execNopf s

end Sys2Proof.Machine
end

