-- ==== Sys2Proof/Machine/Engine.lean ====
section
/-! DEFINITION. The core's operations for the host (10_state.md R27 to R29) and the Driver's choice of the next word (R32). -/

namespace Sys2Proof.Machine

/-! ### `execute(w)` (R28) -/

/-- One `execute(w)`: with RUNNING one step, `ir <- w` and the handler of the decoded opcode (R60); with HALTED Rejected (R63). -/
def execute (w : Word) (s : State) : Host.Outcome State Fault Refusal :=
  match s.run with
  | .running => exec (decode w) (setIr w s)
  | .halted => .fault .halted

/-- What `execute` tells its caller (R28, D21). -/
inductive ExecuteStatus where
  | accepted
  | rejected
  deriving DecidableEq, Repr

/-- `execute(w)` as the host calls it: the state afterwards, and Accepted or Rejected. -/
def hostExecute (w : Word) (s : State) : State × ExecuteStatus :=
  match execute w s with
  | .next t => (t, .accepted)
  | .fault _ => (s, .rejected)
  | .refused _ => (s, .rejected)

/-! ### The other operations (R27, R29) -/

/-- The words of the program an instruction source holds: all of the program file, or the program store (R32). -/
def programOf (src : InstrSource) : List Word :=
  match src with
  | .stream passed pending => passed ++ pending
  | .pcIndexed prog => prog

/-- The source as a run from reset finds it: a stream begins at the first word of the program file, a program store is read at
`pc`, which reset sets to 0 (R97). -/
def rewind (src : InstrSource) : InstrSource :=
  match src with
  | .stream passed pending => .stream [] (passed ++ pending)
  | .pcIndexed prog => .pcIndexed prog

/-- `reset()`: the core is constructed anew. Every field of R25 takes its reset value (R96). The two parameters are no part of the core,
so `FloatAdd` and the program stay (R25; log 8), and the next step runs the program's first word (R97). -/
def hostReset (s : State) : State :=
  { State.reset with source := rewind s.source, floatAdd := s.floatAdd }

/-- `halted()`. -/
def isHalted (s : State) : Bool := s.run == .halted
/-- `read_pc()`. -/
def readPc (s : State) : Byte := s.pc
/-- `read_mem(a)`, through `Storage.read`, so outside [0, 256) it answers 0. -/
def readMem (s : State) (a : Int) : Byte := s.mem.read a
/-- `read_reg(i)`, through `Storage.read`, so outside [0, 16) it answers 0. -/
def readRegAt (s : State) (i : Int) : Byte := s.x.read i
/-- `mem_size()`. -/
def memSize (s : State) : Nat := s.mem.size
/-- `reg_count()`. -/
def regCount (s : State) : Nat := s.x.size

/-- What the State Reporter reads after each executed instruction (R29, R94). -/
structure Observation where
  halted : Bool
  pc : Byte
  mem : List Byte
  regs : List Byte
  deriving DecidableEq, Repr

/-- The observable state: the halt, `pc`, all cells, all registers; `ir` is not observed (R29, D20). -/
def observe (s : State) : Observation :=
  { halted := isHalted s
    pc := readPc s
    mem := (List.range (memSize s)).map (fun a : Nat => readMem s (a : Int))
    regs := (List.range (regCount s)).map (fun i : Nat => readRegAt s (i : Int)) }

/-- The Driver takes another instruction source between steps (R31, R32). -/
def hostSupply (src : InstrSource) (s : State) : State := setSource src s

/-! ### The next word (R32, R33) -/

/-- The word the instruction source has for the next `execute`, and the source afterwards; none when it is exhausted (R33 (b), D13). -/
def nextWord (src : InstrSource) (pc : Byte) : Option (Word × InstrSource) :=
  match src with
  | .stream _ [] => none
  | .stream passed (w :: rest) => some (w, .stream (passed ++ [w]) rest)
  | .pcIndexed prog =>
    match prog[pc.toNat]? with
    | some w => some (w, .pcIndexed prog)
    | none => none

/-- The Driver's next call: no call when HALTED (R30 (b)) or when the source has no word (R33 (b)). -/
def driverStep (s : State) : Host.Outcome State Fault Refusal :=
  match s.run with
  | .halted => .fault .halted
  | .running =>
    match nextWord s.source s.pc with
    | none => .fault .exhausted
    | some (w, src) => execute w (setSource src s)

/-- The source with a word placed where the next call takes its word from: before the stream's words not yet passed, or at index `pc` of the program
store, which is filled up to there with the word 0000 (log 8). -/
def placeWord (src : InstrSource) (pc : Byte) (w : Word) : InstrSource :=
  match src with
  | .stream passed pending => .stream passed (w :: pending)
  | .pcIndexed prog =>
    if pc.toNat < prog.length then .pcIndexed (prog.set pc.toNat w)
    else .pcIndexed (prog ++ List.replicate (pc.toNat - prog.length) 0x0000 ++ [w])

/-- The word whose `nbits` bits are `w`, the bits above them 0. -/
def tableWord (nbits w : Nat) : Word := BitVec.ofNat 16 (w % 2 ^ nbits)

end Sys2Proof.Machine
end

