-- ==== Sys2Proof/Machine/Step.lean ====
section
/-! DEFINITION. One step: the Driver's next `execute` call (10_state.md R28, R32), and the placing of the word it will pass. -/

namespace Sys2Proof.Machine

/-- One step of the machine with its instruction source. -/
def step (s : State) : Host.Outcome State Fault Refusal := driverStep s

/-- The state whose next step runs the given word (log 8). -/
def State.withFetchWord (s : State) (nbits w : Nat) : State :=
  setSource (placeWord s.source s.pc (tableWord nbits w)) s

end Sys2Proof.Machine
end

