-- ==== Sys2Proof/Safety.lean ====
section
/-! DEFINITION. The terms claims use: the invariant of a state, how a run ends, what an instruction writes according to the
spec's tables, and what a step leaves as it was. -/

namespace Sys2Proof.Machine

/-! ### The invariant and the ends of a run -/

/-- The state's data are in the form the model gives them: both storages canonical, the program store 1 to 256 words (R32). -/
abbrev Inv (s : State) : Prop := s.mem.wf ∧ s.x.wf ∧ s.source.wellFormed = true

/-- How a run ends (R33). -/
inductive RunEnd where
  | halted
  | exhausted
  deriving DecidableEq, Repr

/-- The end of a run a state is at, if it is at one (R33): HALTED, or RUNNING with no next word. -/
def runEnd (s : State) : Option RunEnd :=
  match s.run with
  | .halted => some .halted
  | .running =>
    match s.source with
    | .stream _ [] => some .exhausted
    | .stream _ (_ :: _) => none
    | .pcIndexed prog => if prog.length ≤ s.pc.toNat then some .exhausted else none

/-- A safe run goes on or has ended in one of R33's two ways; it stops for nothing else (R85). -/
def stepIsSafe (s : State) : Prop :=
  (∃ t, step s = .next t) ∨ (step s = .fault .halted ∧ runEnd s = some .halted) ∨
    (step s = .fault .exhausted ∧ runEnd s = some .exhausted)

/-- `k` steps of the machine, ending at the first that is no next state. -/
def runSteps : Nat → State → Host.Outcome State Fault Refusal
  | 0, s => .next s
  | k + 1, s =>
    match step s with
    | .next t => runSteps k t
    | .fault r => .fault r
    | .refused r => .refused r

/-- The state after a list of `execute` calls, those Rejected changing nothing. -/
def executeAll : List Word → State → State
  | [], s => s
  | w :: ws, s => executeAll ws (hostExecute w s).1

/-! ### What an instruction writes, from the tables of R15 and R38 -/

/-- The register an instruction writes and the value, from the state its step begins in (R15, R26). -/
def regWriteOf (i : Instr) (s : State) : Option (Nib × Byte) :=
  match i with
  | .loadm r xy => some (r, readMem s xy.toNat)
  | .loadi r xy => some (r, xy)
  | .move r d => some (d, readReg s r)
  | .addi r a b => some (r, readReg s a + readReg s b)
  | .addf r a b => some (r, floatAddOf s.floatAdd (readReg s a) (readReg s b))
  | .or r a b => some (r, readReg s a ||| readReg s b)
  | .and r a b => some (r, readReg s a &&& readReg s b)
  | .xor r a b => some (r, readReg s a ^^^ readReg s b)
  | .ror r x => some (r, (readReg s r).rotateRight x.toNat)
  | .nop0 => none
  | .store _ _ => none
  | .jeq _ _ => none
  | .halt => none
  | .jgt _ _ => none
  | .nope => none
  | .nopf => none

/-- The address an instruction stores to and the byte: STORE alone writes main memory (R38). -/
def memWriteOf (i : Instr) (s : State) : Option (Byte × Byte) :=
  match i with
  | .store r xy => some (xy, readReg s r)
  | .nop0 => none
  | .loadm _ _ => none
  | .loadi _ _ => none
  | .move _ _ => none
  | .addi _ _ _ => none
  | .addf _ _ _ => none
  | .or _ _ _ => none
  | .and _ _ _ => none
  | .xor _ _ _ => none
  | .ror _ _ => none
  | .jeq _ _ => none
  | .halt => none
  | .jgt _ _ => none
  | .nope => none
  | .nopf => none

/-- An instruction that leaves the order of a program: a jump, or HALT. -/
def leavesOrder : Instr → Bool
  | .jeq _ _ => true
  | .jgt _ _ => true
  | .halt => true
  | .nop0 => false
  | .loadm _ _ => false
  | .loadi _ _ => false
  | .store _ _ => false
  | .move _ _ => false
  | .addi _ _ _ => false
  | .addf _ _ _ => false
  | .or _ _ _ => false
  | .and _ _ _ => false
  | .xor _ _ _ => false
  | .ror _ _ => false
  | .nope => false
  | .nopf => false

/-- The accepted calls among a list of `execute` calls: each instruction with the state its step begins in. -/
def acceptedCalls : List Word → State → List (Instr × State)
  | [], _ => []
  | w :: ws, s =>
    match s.run with
    | .running => (decode w, s) :: acceptedCalls ws (hostExecute w s).1
    | .halted => acceptedCalls ws s

/-- The byte of the last `MemWrite(a, 1, v)` among accepted calls (R43). -/
def lastMemWrite (a : Byte) : List (Instr × State) → Option Byte
  | [] => none
  | (i, s) :: rest =>
    match lastMemWrite a rest with
    | some v => some v
    | none =>
      match memWriteOf i s with
      | some (b, v) => if b = a then some v else none
      | none => none

/-- The byte of the last write of register `q` among accepted calls (R43). -/
def lastRegWrite (q : Nib) : List (Instr × State) → Option Byte
  | [] => none
  | (i, s) :: rest =>
    match lastRegWrite q rest with
    | some v => some v
    | none =>
      match regWriteOf i s with
      | some (r, v) => if r = q then some v else none
      | none => none

/-! ### Frames -/

/-- The parts of the state no handler writes (R61): `ir` and the two parameters. -/
def SameRest (s t : State) : Prop :=
  t.ir = s.ir ∧ t.source = s.source ∧ t.floatAdd = s.floatAdd

/-- `pc` advanced by 1, where it is below 0xFF. (At 0xFF the wrap is the spec's own decision D2, said by a statement of its own.) -/
def Advanced (s t : State) : Prop := s.pc.toNat < 255 → t.pc.toNat = s.pc.toNat + 1

/-- Every register reads as before. -/
def SameRegs (s t : State) : Prop := ∀ q : Nib, readReg t q = readReg s q

/-- Every byte of memory reads as before. -/
def SameMem (s t : State) : Prop := ∀ a : Int, readMem t a = readMem s a

/-- Register `r` now holds `v`, the machine advanced, and nothing else changed. -/
def RegisterStep (s t : State) (r : Nib) (v : Byte) : Prop :=
  readReg t r = v ∧ (∀ q : Nib, q ≠ r → readReg t q = readReg s q) ∧ SameMem s t ∧
    Advanced s t ∧ t.run = s.run ∧ SameRest s t

/-- The byte at `a` now is `v`, the machine advanced, and nothing else changed. -/
def MemoryStep (s t : State) (a : Int) (v : Byte) : Prop :=
  readMem t a = v ∧ (∀ b : Int, b ≠ a → readMem t b = readMem s b) ∧ SameRegs s t ∧
    Advanced s t ∧ t.run = s.run ∧ SameRest s t

/-- Only `pc` may have changed. -/
def OnlyPcStep (s t : State) : Prop :=
  SameRegs s t ∧ SameMem s t ∧ t.run = s.run ∧ SameRest s t

/-- Two states agree on all of R25 but `ir`, and on the parameters. -/
def AgreeButIr (s t : State) : Prop :=
  t.run = s.run ∧ t.pc = s.pc ∧ t.x = s.x ∧ t.mem = s.mem ∧ t.source = s.source ∧ t.floatAdd = s.floatAdd

/-- Two states agree on all of R25; their instruction sources may differ. -/
def SameCoreState (s t : State) : Prop :=
  t.run = s.run ∧ t.pc = s.pc ∧ t.ir = s.ir ∧ t.x = s.x ∧ t.mem = s.mem ∧ t.floatAdd = s.floatAdd

end Sys2Proof.Machine
end

