-- ==== Sys2Proof/Certificates/Slice0/Obligations.lean ====
section
/-! DEFINITION. The statements for the provers. Where a clause rests on a decision the spec marks as its own (D<n> of
92_eei_decisions.md) or on a choice of this model (log <n>), the statement's docstring says so. -/

open Sys2Proof Sys2Proof.Machine

/-! ### Encoding -/

/-- Words the spec writes out beside the instruction they stand for (R59's table, R64 to R66, R70, R80). -/
def Obligations.SampleWordsDecodeAsTheSpecWritesThem : Prop :=
  decode 0x11AB = .loadm 1 0xAB ∧ decode 0x22FF = .loadi 2 0xFF ∧ decode 0x3380 = .store 3 0x80 ∧
  decode 0x4012 = .move 1 2 ∧ decode 0x5312 = .addi 3 1 2 ∧ decode 0xA204 = .ror 2 4 ∧
  decode 0xB10A = .jeq 1 0x0A ∧ decode 0xC000 = .halt ∧ decode 0x0000 = .nop0 ∧
  decode 0xE123 = .nope ∧ decode 0xFFFF = .nopf

/-- Every instruction, with every operand, comes back from its word (R49 to R55). -/
def Obligations.DecodeEncodeRoundTrip : Prop :=
  ∀ i : Instr, decode (encode i) = i

/-- A word decodes to an instruction exactly when it is that instruction's word outside the ignored nibbles: every bit with a role is read,
in its place, and no other (R47 to R56). That the nibbles without a role are ignored is the spec's decision D7 (log 3). -/
def Obligations.DecodeReadsExactlyTheBitsWithARole : Prop :=
  ∀ (w : Word) (i : Instr), decode w = i ↔ w &&& ~~~(ignoredMask i) = encode i

/-- R48: the opcode bits 15..12 select the entry of the dispatch table, and no other bit takes part. (An entry is named by its mnemonic.) -/
def Obligations.OpcodeBitsAloneSelectTheOperation : Prop :=
  ∀ w v : Word,
    (decode w).mnemonic = (decode v).mnemonic ↔ w.extractLsb' 12 4 = v.extractLsb' 12 4

/-- R55: every word matches exactly one row of the opcode map, the one of its top nibble, and its instruction is that row's. (The
mnemonics are names the spec chose, D16.) -/
def Obligations.EveryWordMatchesOneOpcodeRow : Prop :=
  ∀ w : Word, ∃ row : OpcodeRow, opcodeMap.filter (fun r => r.covers w) = [row] ∧
    row.op = w.extractLsb' 12 4 ∧ row.mnemonic = (decode w).mnemonic

/-- R49 to R53: where each form's operands stand in the word; which opcode is which instruction is R22's and R55's. The clauses of
opcodes 0, 4, A, C, E and F also hold for words whose nibbles without a role are not 0, which is the spec's decision D7 (log 3). -/
def Obligations.OperandFormsPlaceTheirNibbles : Prop :=
  ∀ w : Word,
    let op := w.extractLsb' 12 4
    let n2 := w.extractLsb' 8 4
    let n1 := w.extractLsb' 4 4
    let n0 := w.extractLsb' 0 4
    let xy := w.extractLsb' 0 8
    (op = 0x0 → decode w = .nop0) ∧ (op = 0x1 → decode w = .loadm n2 xy) ∧
    (op = 0x2 → decode w = .loadi n2 xy) ∧ (op = 0x3 → decode w = .store n2 xy) ∧
    (op = 0x4 → decode w = .move n1 n0) ∧ (op = 0x5 → decode w = .addi n2 n1 n0) ∧
    (op = 0x6 → decode w = .addf n2 n1 n0) ∧ (op = 0x7 → decode w = .or n2 n1 n0) ∧
    (op = 0x8 → decode w = .and n2 n1 n0) ∧ (op = 0x9 → decode w = .xor n2 n1 n0) ∧
    (op = 0xA → decode w = .ror n2 n0) ∧ (op = 0xB → decode w = .jeq n2 xy) ∧
    (op = 0xC → decode w = .halt) ∧ (op = 0xD → decode w = .jgt n2 xy) ∧
    (op = 0xE → decode w = .nope) ∧ (op = 0xF → decode w = .nopf)

/-- R8 and R59: the four hexadecimal digits of a word, in upper or lower case, parse back to it, the first digit bits 15..12 (the
order of the digits is the spec's own inference in R8). -/
def Obligations.HexTextOfAWordParsesBack : Prop :=
  ∀ w : Word, parseWord (wordText w) = .ok w ∧ parseWord ((wordText w).map Char.toLower) = .ok w ∧
    (wordText w)[0]? = some (hexDigit (w.extractLsb' 12 4))

/-- R8: a text is an instruction exactly when it is four hexadecimal digits, of either case; a text of another length is rejected
under one name, a four-character text with another character under another. -/
def Obligations.OnlyFourHexDigitsAreAnInstruction : Prop :=
  ∀ cs : List Char,
    ((∃ w, parseWord cs = .ok w) ↔
      cs.length = 4 ∧ ∀ c ∈ cs, c ∈ ['0', '1', '2', '3', '4', '5', '6', '7', '8', '9',
        'A', 'B', 'C', 'D', 'E', 'F', 'a', 'b', 'c', 'd', 'e', 'f']) ∧
    (parseWord cs = .error .wrongLength ↔ cs.length ≠ 4)

/-- The nibbles without a role change nothing but the word `ir` holds: two words that differ only there do the same (R56, the spec's
decision D7, log 3; `ir`: D4, log 7). -/
def Obligations.IgnoredNibblesDoNotChangeTheStep : Prop :=
  ∀ (w v : Word) (s : State), s.run = .running →
    w ||| ignoredMask (decode w) = v ||| ignoredMask (decode w) →
    ∃ t t' : State, execute w s = .next t ∧ execute v s = .next t' ∧ AgreeButIr t t' ∧
      t.ir = w ∧ t'.ir = v

/-! ### Reset and storage -/

/-- R96: what reset leaves, for the state after construction and for `reset()` of any state. (`ir` = 0x0000 is the spec's decision D5, log 6.) -/
def Obligations.ResetLeavesTheStateOfTheTable : Prop :=
  ∀ t : State, (t = State.reset ∨ ∃ s, t = hostReset s) →
    t.run = .running ∧ t.pc.toNat = 0 ∧ t.ir.toNat = 0 ∧
      (∀ i : Int, readRegAt t i = 0x00) ∧ ∀ a : Int, readMem t a = 0x00

/-- The invariant holds at reset (the canonical form is the model's, log 10; the empty stream at reset too, log 1). -/
def Obligations.ResetMeetsTheInvariant : Prop := Inv State.reset

/-- R11, R27, R29: the observation operations answer 0 outside the range of their Storage and the sizes are 256 and 16. (That an
address may be any integer is the spec's decision D23, log 10.) -/
def Obligations.ObservationOutsideTheRangeReadsZero : Prop :=
  ∀ (s : State) (a : Int),
    (¬(0 ≤ a ∧ a < 256) → readMem s a = 0x00 ∧ ∀ v : Byte, s.mem.write a v = s.mem) ∧
    (¬(0 ≤ a ∧ a < 16) → readRegAt s a = 0x00 ∧ ∀ v : Byte, s.x.write a v = s.x) ∧
    memSize s = 256 ∧ regCount s = 16

/-- Storages in canonical form that read alike at every address are equal data (the model's form, log 10). -/
def Obligations.CanonicalStoragesThatReadAlikeAreEqual : Prop :=
  ∀ (n : Nat) (m m' : Storage n), m.wf → m'.wf → (∀ a : Int, m.read a = m'.read a) → m = m'

/-- R40: a write changes its one cell and nothing else, over any Storage, and the value read back is the one written. -/
def Obligations.StorageWriteChangesItsCellAlone : Prop :=
  ∀ (n : Nat) (m : Storage n) (a : Int) (v : Byte), 0 ≤ a → a < n →
    (m.write a v).read a = v ∧ (∀ b : Int, b ≠ a → (m.write a v).read b = m.read b) ∧
      (m.wf → (m.write a (m.read a)) = m)

/-- R29: the observation holds `pc`, the 256 cells, the 16 registers and the halt, and not `ir` (D20). -/
def Obligations.ObservationShowsAllButIr : Prop :=
  ∀ (s : State) (w : Word),
    (observe s).pc = s.pc ∧ ((observe s).halted = true ↔ s.run = .halted) ∧
    (observe s).mem.length = 256 ∧ (observe s).regs.length = 16 ∧
    (∀ xy : Byte, (observe s).mem[xy.toNat]? = some (readByte s xy)) ∧
    (∀ r : Nib, (observe s).regs[r.toNat]? = some (readReg s r)) ∧
    observe (setIr w s) = observe s

/-! ### Data movement -/

/-- R67. (`advance` is said for `pc` below 0xFF; the wrap is decision D2, `ProgramCounterAfterEveryInstruction`.) -/
def Obligations.LoadDirectLoadsTheByte : Prop :=
  ∀ (r : Nib) (xy : Byte) (s : State), ∃ t, exec (.loadm r xy) s = .next t ∧
    RegisterStep s t r (readMem s xy.toNat)

/-- R68. (`advance` as for R67.) -/
def Obligations.LoadImmediateLoadsTheByte : Prop :=
  ∀ (r : Nib) (xy : Byte) (s : State), ∃ t, exec (.loadi r xy) s = .next t ∧ RegisterStep s t r xy

/-- R69. The address stored to is XY, read by the same `byteAddr` the meaning uses. That no instruction word changes is the clause
that the instruction source is as before; that instruction words lie outside main memory is R45, the spec's decision D12 (log 16).
(`advance` as for R67.) -/
def Obligations.StoreWritesTheRegisterToMemory : Prop :=
  ∀ (r : Nib) (xy : Byte) (s : State), ∃ t, exec (.store r xy) s = .next t ∧
    MemoryStep s t (byteAddr xy) (readReg s r) ∧ byteAddr xy = xy.toNat

/-- R70 and R51: R (the first operand) is the source, S (the second) the destination. -/
def Obligations.MoveCopiesTheFirstRegisterToTheSecond : Prop :=
  ∀ (r d : Nib) (s : State), ∃ t, exec (.move r d) s = .next t ∧ RegisterStep s t d (readReg s r) ∧
    (r = d → SameRegs s t)

/-! ### Arithmetic and logic -/

/-- R71: the sum modulo 256. (`advance` as for R67.) -/
def Obligations.AddIntegerWrapsModulo256 : Prop :=
  ∀ (r a b : Nib) (s : State), ∃ t, exec (.addi r a b) s = .next t ∧
    (readReg t r).toNat = ((readReg s a).toNat + (readReg s b).toNat) % 256 ∧
    RegisterStep s t r (readReg t r)

/-- R76: under the default parameter the encoded exact sum (R74, decision D8), under another implementation its own function. -/
def Obligations.AddFloatWritesFloatAdd : Prop :=
  ∀ (r a b : Nib) (s : State), ∃ t, exec (.addf r a b) s = .next t ∧
    RegisterStep s t r (readReg t r) ∧
    (s.floatAdd = .default →
      readReg t r = floatEncode (floatUnits (readReg s a) + floatUnits (readReg s b))) ∧
    (s.floatAdd = .implementation → readReg t r = Config.floatAdd (readReg s a) (readReg s b))

/-- R75: the result of opcode 6 is a function of the two operand bytes alone, the same at every step. It holds for every `FloatAdd`. -/
def Obligations.FloatAddDependsOnItsOperandsAlone : Prop :=
  (∀ (r a b r' a' b' : Nib) (s s' : State), s.floatAdd = s'.floatAdd →
    readReg s a = readReg s' a' → readReg s b = readReg s' b' →
    ∃ t t', exec (.addf r a b) s = .next t ∧ exec (.addf r' a' b') s' = .next t' ∧
      readReg t r = readReg t' r') ∧
  ∀ s t : State, step s = .next t → t.floatAdd = s.floatAdd

/-- R77: bit by bit. (`advance` as for R67.) -/
def Obligations.OrIsBitwise : Prop :=
  ∀ (r a b : Nib) (s : State), ∃ t, exec (.or r a b) s = .next t ∧
    (∀ i < 8, (readReg t r).getLsbD i = ((readReg s a).getLsbD i || (readReg s b).getLsbD i)) ∧
    RegisterStep s t r (readReg t r)

/-- R78 and R79: bit by bit (that AND and XOR are bitwise is the spec's resolution C10). -/
def Obligations.AndAndXorAreBitwise : Prop :=
  ∀ (r a b : Nib) (s : State),
    (∃ t, exec (.and r a b) s = .next t ∧
      (∀ i < 8, (readReg t r).getLsbD i = ((readReg s a).getLsbD i && (readReg s b).getLsbD i)) ∧
      RegisterStep s t r (readReg t r)) ∧
    ∃ t, exec (.xor r a b) s = .next t ∧
      (∀ i < 8, (readReg t r).getLsbD i = ((readReg s a).getLsbD i ^^ (readReg s b).getLsbD i)) ∧
      RegisterStep s t r (readReg t r)

/-- R80: bit i of the result is bit ((i + X) mod 8) of the operand, for every count 0 to 15; by 0 and by 8 nothing changes. -/
def Obligations.RotateRightMovesEveryBit : Prop :=
  ∀ (r x : Nib) (s : State), ∃ t, exec (.ror r x) s = .next t ∧
    (∀ i < 8, (readReg t r).getLsbD i = (readReg s r).getLsbD ((i + x.toNat) % 8)) ∧
    (x.toNat % 8 = 0 → readReg t r = readReg s r) ∧
    RegisterStep s t r (readReg t r)

/-! ### The default float format (R72 to R74; all of it the spec's decision D8) -/

/-- R72: the decoded value is the integer of units over 256, and the integer's bounds. -/
def Obligations.FloatDecodeIsUnitsOver256 : Prop :=
  ∀ b : Byte, floatDecode b = (floatUnits b : Rat) / 256 ∧ -1920 ≤ floatUnits b ∧ floatUnits b ≤ 1920

/-- R73 (a), (b): encoding truncates toward zero to the nearest value the format holds, saturating; so a representable value comes back. -/
def Obligations.FloatEncodeTruncatesTowardZero : Prop :=
  ∀ k : Int,
    (floatUnits (floatEncode k)).natAbs ≤ k.natAbs ∧ 0 ≤ floatUnits (floatEncode k) * k ∧
    (∀ b : Byte, (floatUnits b).natAbs ≤ k.natAbs →
      (floatUnits b).natAbs ≤ (floatUnits (floatEncode k)).natAbs) ∧
    ∀ b : Byte, floatUnits b = k → floatUnits (floatEncode k) = k

/-- R73 (c), (d): the result is normalised, and zero is always 0x00. -/
def Obligations.FloatEncodeIsNormalised : Prop :=
  ∀ k : Int,
    (8 ≤ floatMantissa (floatEncode k) ∨ floatExponent (floatEncode k) = 0) ∧
    (floatUnits (floatEncode k) = 0 → floatEncode k = 0x00)

/-- R74: commutative; adding 0x00 normalises and keeps the value; a value plus its negation is 0x00; not associative. -/
def Obligations.DefaultFloatAddLaws : Prop :=
  (∀ a b : Byte, floatAddDefault a b = floatAddDefault b a) ∧
  (∀ a : Byte, floatUnits (floatAddDefault a 0x00) = floatUnits a ∧
    (8 ≤ floatMantissa (floatAddDefault a 0x00) ∨ floatExponent (floatAddDefault a 0x00) = 0)) ∧
  (∀ a : Byte, floatAddDefault a (a ^^^ 0x80) = 0x00) ∧
  ∃ a b c : Byte,
    floatAddDefault (floatAddDefault a b) c ≠ floatAddDefault a (floatAddDefault b c)

/-! ### Control transfer -/

/-- R82: taken exactly when x[R] = x[0]; nothing but `pc` changes; `B0XY` always jumps. -/
def Obligations.JumpIfEqualComparesWithR0 : Prop :=
  ∀ (r : Nib) (xy : Byte) (s : State), ∃ t, exec (.jeq r xy) s = .next t ∧ OnlyPcStep s t ∧
    (readReg s r = readReg s 0 → t.pc = xy) ∧ (readReg s r ≠ readReg s 0 → Advanced s t) ∧
    (r = 0 → t.pc = xy)

/-- R84: taken exactly when x[R] > x[0], both unsigned; nothing but `pc` changes; `D0XY` never jumps. (`advance` as for R67.) -/
def Obligations.JumpIfGreaterComparesUnsigned : Prop :=
  ∀ (r : Nib) (xy : Byte) (s : State), ∃ t, exec (.jgt r xy) s = .next t ∧ OnlyPcStep s t ∧
    ((readReg s r).toNat > (readReg s 0).toNat → t.pc = xy) ∧
    (¬(readReg s r).toNat > (readReg s 0).toNat → Advanced s t) ∧ (r = 0 → Advanced s t)

/-- R83: HALT sets HALTED and changes no register and no byte of memory. That `pc` does not advance is the spec's decision D3 (log 5). -/
def Obligations.HaltSetsHaltedAndChangesNothingElse : Prop :=
  ∀ s : State, ∃ t, exec .halt s = .next t ∧ t.run = .halted ∧ t.pc = s.pc ∧ SameRegs s t ∧
    SameMem s t ∧ SameRest s t

/-- R64 to R66: the three unassigned opcodes advance and change nothing else. (At 0xFF: decision D2, log 4.) -/
def Obligations.UnassignedOpcodesOnlyAdvance : Prop :=
  ∀ (i : Instr) (s : State), (i = .nop0 ∨ i = .nope ∨ i = .nopf) →
    ∃ t, exec i s = .next t ∧ OnlyPcStep s t ∧ t.pc.toNat = (s.pc.toNat + 1) % 256

/-- R62, R81: `pc` after each instruction. The wrap of an advance at 0xFF is the spec's decision D2 (log 4), HALT's `pc` its decision D3 (log 5). -/
def Obligations.ProgramCounterAfterEveryInstruction : Prop :=
  ∀ (i : Instr) (s : State), ∃ t, exec i s = .next t ∧
    t.pc.toNat =
      match i with
      | .halt => s.pc.toNat
      | .jeq r xy => if readReg s r = readReg s 0 then xy.toNat else (s.pc.toNat + 1) % 256
      | .jgt r xy =>
        if (readReg s 0).toNat < (readReg s r).toNat then xy.toNat else (s.pc.toNat + 1) % 256
      | _ => (s.pc.toNat + 1) % 256

/-! ### The whole machine -/

/-- R64 to R84: every instruction writes the one register or the one byte of memory its rule gives it (the tables of R15 and R38), with
that rule's value computed from the state it begins in (R26, the spec's decision D15), never both, and every other cell reads as before.
The values of AND and XOR are bitwise by the spec's resolution C10 (log 14), ADDF's under the default parameter is its decision D8 (log 2). -/
def Obligations.EveryInstructionWritesAtMostItsOneCell : Prop :=
  ∀ (i : Instr) (s : State), ∃ t, exec i s = .next t ∧
    (∀ q : Nib, readReg t q =
      match regWriteOf i s with
      | some (r, v) => if q = r then v else readReg s q
      | none => readReg s q) ∧
    (∀ a : Int, readMem t a =
      match memWriteOf i s with
      | some (b, v) => if a = b.toNat then v else readMem s a
      | none => readMem s a) ∧
    (regWriteOf i s = none ∨ memWriteOf i s = none)

/-- R9: every word is legal. It is of exactly one row of the opcode map, and a running core accepts it and reaches a next state. -/
def Obligations.EveryWordRunsOnARunningCore : Prop :=
  ∀ w : Word, (opcodeMap.filter (fun row => row.covers w)).length = 1 ∧
    ∀ s : State, s.run = .running → ∃ t, execute w s = .next t

/-- R60, R32: with the core running, a step takes the source's next word, writes it to `ir` (decision D4, log 7) and is `exec` of the
decoded instruction; a stream counts that word as passed, a program store stays. -/
def Obligations.StepRunsTheDecodedInstruction : Prop :=
  ∀ (s : State) (w : Word), s.run = .running →
    (∀ passed ws : List Word, s.source = .stream passed (w :: ws) →
      step s = exec (decode w) { s with ir := w, source := .stream (passed ++ [w]) ws }) ∧
    (∀ prog : List Word, s.source = .pcIndexed prog → prog[s.pc.toNat]? = some w →
      step s = exec (decode w) { s with ir := w })

/-- A placed word is what the next step runs, and nothing else of the state is touched (log 8). (`ir`: decision D4, log 7.) -/
def Obligations.PlacedWordIsTheNextInstruction : Prop :=
  ∀ (s : State) (nbits n : Nat) (w : Word), s.run = .running → w = BitVec.ofNat 16 (n % 2 ^ nbits) →
    (∃ src, step (s.withFetchWord nbits n) = exec (decode w) { s with ir := w, source := src }) ∧
    (∀ passed ws, s.source = .stream passed ws →
      step (s.withFetchWord nbits n) =
        exec (decode w) { s with ir := w, source := .stream (passed ++ [w]) ws }) ∧
    (nbits ≤ 16 → decodeTableWord nbits n = some (decode w))

/-- R28, R63: `execute` is Accepted exactly when the core is running; Rejected it changes nothing (`ir`: decision D6), Accepted it
leaves the word in `ir` (decision D4). -/
def Obligations.ExecuteIsAcceptedExactlyWhenRunning : Prop :=
  ∀ (w : Word) (s : State),
    ((hostExecute w s).2 = .accepted ↔ s.run = .running) ∧
    (s.run = .halted → hostExecute w s = (s, .rejected) ∧ execute w s = .fault .halted) ∧
    (s.run = .running →
      execute w s = .next (hostExecute w s).1 ∧ (hostExecute w s).1.ir = w)

/-- R63, R83, R95: HALTED is final for any number of further words and of steps (`ir`: decision D6, log 7). -/
def Obligations.HaltedIsFinal : Prop :=
  ∀ s : State, s.run = .halted →
    (∀ ws : List Word, executeAll ws s = s) ∧ ∀ k : Nat, runSteps (k + 1) s = .fault .halted

/-- R21, R95: HALT and nothing else sets HALTED, and only `reset()` leaves it. (An effect applied to a HALTED state is the model's own
case, log 15.) -/
def Obligations.OnlyHaltHaltsAndOnlyResetResumes : Prop :=
  (∀ (w : Word) (s t : State), s.run = .running → execute w s = .next t →
    (t.run = .halted ↔ decode w = .halt)) ∧
  (∀ (i : Instr) (s t : State), s.run = .halted → exec i s = .next t → t.run = .halted) ∧
  ∀ s : State, (hostReset s).run = .running

/-- R33, R85: a step stops at the two ends of a run and at nothing else. (Exhaustion of a program store at `pc >= n` is decision D13, the two ends are decision D19, log 9; the faults' names: log 12.) -/
def Obligations.StepStopsOnlyAtTheEndOfARun : Prop :=
  ∀ s : State,
    (step s = .fault .halted ↔ runEnd s = some .halted) ∧
    (step s = .fault .exhausted ↔ runEnd s = some .exhausted) ∧
    ((∃ t, step s = .next t) ↔ runEnd s = none)

/-- Every step keeps the invariant: both storages in canonical form (the model's, log 10), the program store 1 to 256 words (decision
D13, log 9). -/
def Obligations.StepKeepsTheInvariant : Prop :=
  ∀ s t : State, Inv s → step s = .next t → Inv t

/-- R20, R61: no instruction reads `ir`, so two states that differ only there step alike, and to the very same state: `ir` too is then the
same, because every accepted step overwrites it, which is the spec's decision D4 (log 7). -/
def Obligations.InstructionRegisterIsNeverRead : Prop :=
  ∀ s s' : State, AgreeButIr s s' → step s = step s'

/-- R61: what an instruction does to registers and memory, and whether it halts, depends on the two storages (and the float parameter) alone, not
on `pc`, `ir` or the source. -/
def Obligations.HandlersReadOnlyTheStorages : Prop :=
  ∀ (i : Instr) (s s' : State), s.x = s'.x → s.mem = s'.mem → s.floatAdd = s'.floatAdd →
    ∃ t t', exec i s = .next t ∧ exec i s' = .next t' ∧ t.x = t'.x ∧ t.mem = t'.mem ∧
      (s.run = s'.run → t.run = t'.run)

/-- R43: after any calls, a byte of memory or a register holds what the last accepted write to it wrote, or what it held before
them; from reset that is 0x00. The bytes written are `regWriteOf`'s and `memWriteOf`'s, so AND and XOR are bitwise by the spec's resolution
C10 (log 14) and ADDF under the default parameter is its decision D8 (log 2). -/
def Obligations.ReadsSeeTheLastWrite : Prop :=
  (∀ (ws : List Word) (s : State) (a : Byte), readMem (executeAll ws s) a.toNat =
    (lastMemWrite a (acceptedCalls ws s)).getD (readMem s a.toNat)) ∧
  (∀ (ws : List Word) (s : State) (q : Nib), readReg (executeAll ws s) q =
    (lastRegWrite q (acceptedCalls ws s)).getD (readReg s q)) ∧
  (∀ (ws : List Word) (a : Byte), readMem (executeAll ws State.reset) a.toNat =
    (lastMemWrite a (acceptedCalls ws State.reset)).getD 0x00) ∧
  ∀ (ws : List Word) (q : Nib), readReg (executeAll ws State.reset) q =
    (lastRegWrite q (acceptedCalls ws State.reset)).getD 0x00

/-- R45, R101: no step changes an instruction word: the program's words stay, a program store wholly, and a stream counts its next word as
passed and no more. (That instruction words lie outside main memory is the spec's decision D12, log 16; `ir`: D4, log 7.) -/
def Obligations.NoStepChangesAnInstructionWord : Prop :=
  ∀ s t : State, step s = .next t →
    programOf t.source = programOf s.source ∧
    (∀ prog, s.source = .pcIndexed prog → t.source = .pcIndexed prog) ∧
    ∀ passed ws, s.source = .stream passed ws →
      ∃ w, ws = w :: ws.tail ∧ t.source = .stream (passed ++ [w]) ws.tail ∧ t.ir = w

/-- One step is the same under both instruction sources when they pass the same word (R32, decision D1, log 1; `ir` is the same because
the step writes it, decision D4, log 7). -/
def Obligations.OneStepIsTheSameUnderBothSources : Prop :=
  ∀ (s : State) (w : Word) (passed ws prog : List Word), s.run = .running → prog[s.pc.toNat]? = some w →
    ∃ t u, step { s with source := .stream passed (w :: ws) } = .next t ∧
      step { s with source := .pcIndexed prog } = .next u ∧ SameCoreState t u ∧
      t.source = .stream (passed ++ [w]) ws ∧ u.source = .pcIndexed prog

/-- A program of at most 256 words without a jump or HALT runs alike from `pc = 0` under both instruction sources, word for word (R32,
decision D1, log 1; 95_test_vectors.md says it of its own straight-line programs). The bound of 256 words is the spec's decision D13
(log 9), the `pc` of 0x00 after all 256 its decision D2 (the wrap, log 4), and `ir` is each step's word by its decision D4 (log 7). -/
def Obligations.StraightLineProgramsRunAlikeUnderBothSources : Prop :=
  ∀ (ws : List Word) (s : State) (k : Nat), s.run = .running → s.pc = 0x00 → ws.length ≤ 256 →
    (∀ w ∈ ws, leavesOrder (decode w) = false) → k ≤ ws.length →
    ∃ t u, runSteps k { s with source := .stream [] ws } = .next t ∧
      runSteps k { s with source := .pcIndexed ws } = .next u ∧ SameCoreState t u ∧
      t.pc = BitVec.ofNat 8 k ∧ t.source = .stream (ws.take k) (ws.drop k) ∧ u.source = .pcIndexed ws

/-! ### The run after a reset -/

/-- R97: after `reset()` `pc` is 0 and the first step runs the program's first word, under `Stream` the first word of the program file
however many words were passed before, under `PcIndexed` `prog[0]`. With an empty program the run has ended Exhausted (R33), which is the
spec's decisions D13 and D19 (log 9; the fault's name: log 12). Last: the first step from the state after construction, once the Driver
supplies a program. (The two sources: decision D1, log 1; `ir`: decision D4, log 7.) -/
def Obligations.FirstStepAfterResetRunsTheFirstWord : Prop :=
  (∀ s : State, (hostReset s).pc = 0x00 ∧
    (∀ (w : Word) (rest : List Word), programOf s.source = w :: rest →
      ∃ src, programOf src = w :: rest ∧
        step (hostReset s) = exec (decode w) { hostReset s with ir := w, source := src }) ∧
    (programOf s.source = [] → step (hostReset s) = .fault .exhausted)) ∧
  ∀ (w : Word) (rest : List Word),
    step (hostSupply (.stream [] (w :: rest)) State.reset) =
      exec (decode w) { State.reset with ir := w, source := .stream [w] rest } ∧
    step (hostSupply (.pcIndexed (w :: rest)) State.reset) =
      exec (decode w) { State.reset with ir := w, source := .pcIndexed (w :: rest) }

/-- R96, R97, R25: `reset()` forgets a run. After any number of steps it gives the very state it gives before them: the program and the
float parameter stay, no step having changed them, and nothing else is left of the run. (That the two parameters are fields of State, and
that `reset()` keeps them, is the model's form, logs 1, 2 and 8.) -/
def Obligations.ResetForgetsTheRun : Prop :=
  ∀ (k : Nat) (s t : State), runSteps k s = .next t → hostReset t = hostReset s
end

