-- ==== Sys2Proof/Laws/Encoding.lean ====
section
/-! SUPPORT. The bits and fields of a word put together from an opcode and operands (30_encoding.md R47 to R53). -/

namespace Sys2Proof

theorem wordRXY_bits (op r : Nib) (xy : Byte) (i : Nat) :
    (wordRXY op r xy).getLsbD i =
      if i < 8 then xy.getLsbD i else if i < 12 then r.getLsbD (i - 8) else op.getLsbD (i - 12) := by
  have h : (wordRXY op r xy).getLsbD i = (op ++ r ++ xy).getLsbD i := rfl
  simp only [h, BitVec.getLsbD_append]
  grind

theorem wordOfNibbles_bits (op n2 n1 n0 : Nib) (i : Nat) :
    (wordOfNibbles op n2 n1 n0).getLsbD i =
      if i < 4 then n0.getLsbD i else if i < 8 then n1.getLsbD (i - 4)
      else if i < 12 then n2.getLsbD (i - 8) else op.getLsbD (i - 12) := by
  have h : (wordOfNibbles op n2 n1 n0).getLsbD i = (op ++ n2 ++ n1 ++ n0).getLsbD i := rfl
  simp only [h, BitVec.getLsbD_append]
  grind

/-! ### The fields come back -/

@[simp] theorem opNibble_wordRXY (op r : Nib) (xy : Byte) : opNibble (wordRXY op r xy) = op := by
  apply BitVec.eq_of_getLsbD_eq
  intro i hi
  simp only [opNibble, BitVec.getLsbD_extractLsb', wordRXY_bits]
  interval_cases i <;> simp

@[simp] theorem nibble2_wordRXY (op r : Nib) (xy : Byte) : nibble2 (wordRXY op r xy) = r := by
  apply BitVec.eq_of_getLsbD_eq
  intro i hi
  simp only [nibble2, BitVec.getLsbD_extractLsb', wordRXY_bits]
  interval_cases i <;> simp

@[simp] theorem lowByte_wordRXY (op r : Nib) (xy : Byte) : lowByte (wordRXY op r xy) = xy := by
  apply BitVec.eq_of_getLsbD_eq
  intro i hi
  simp only [lowByte, BitVec.getLsbD_extractLsb', wordRXY_bits]
  interval_cases i <;> simp

@[simp] theorem opNibble_wordOfNibbles (op n2 n1 n0 : Nib) :
    opNibble (wordOfNibbles op n2 n1 n0) = op := by
  apply BitVec.eq_of_getLsbD_eq
  intro i hi
  simp only [opNibble, BitVec.getLsbD_extractLsb', wordOfNibbles_bits]
  interval_cases i <;> simp

@[simp] theorem nibble2_wordOfNibbles (op n2 n1 n0 : Nib) :
    nibble2 (wordOfNibbles op n2 n1 n0) = n2 := by
  apply BitVec.eq_of_getLsbD_eq
  intro i hi
  simp only [nibble2, BitVec.getLsbD_extractLsb', wordOfNibbles_bits]
  interval_cases i <;> simp

@[simp] theorem nibble1_wordOfNibbles (op n2 n1 n0 : Nib) :
    nibble1 (wordOfNibbles op n2 n1 n0) = n1 := by
  apply BitVec.eq_of_getLsbD_eq
  intro i hi
  simp only [nibble1, BitVec.getLsbD_extractLsb', wordOfNibbles_bits]
  interval_cases i <;> simp

@[simp] theorem nibble0_wordOfNibbles (op n2 n1 n0 : Nib) :
    nibble0 (wordOfNibbles op n2 n1 n0) = n0 := by
  apply BitVec.eq_of_getLsbD_eq
  intro i hi
  simp only [nibble0, BitVec.getLsbD_extractLsb', wordOfNibbles_bits]
  interval_cases i <;> simp

/-! ### The masked bits -/

/-- The bits every row's mask keeps are the opcode (R55). -/
theorem wordRXY_masked (op r : Nib) (xy : Byte) :
    wordRXY op r xy &&& 0xF000#16 = op.setWidth 16 <<< 12 := by
  apply BitVec.eq_of_getLsbD_eq
  intro i hi
  simp only [BitVec.getLsbD_and, wordRXY_bits, BitVec.getLsbD_shiftLeft, BitVec.getLsbD_setWidth]
  interval_cases i <;> simp

theorem wordOfNibbles_masked (op n2 n1 n0 : Nib) :
    wordOfNibbles op n2 n1 n0 &&& 0xF000#16 = op.setWidth 16 <<< 12 := by
  apply BitVec.eq_of_getLsbD_eq
  intro i hi
  simp only [BitVec.getLsbD_and, wordOfNibbles_bits, BitVec.getLsbD_shiftLeft,
    BitVec.getLsbD_setWidth]
  interval_cases i <;> simp

/-- The second nibble alone (what MOVE ignores, R51). -/
theorem wordOfNibbles_nibble2_masked (op n2 n1 n0 : Nib) :
    wordOfNibbles op n2 n1 n0 &&& 0x0F00#16 = n2.setWidth 16 <<< 8 := by
  apply BitVec.eq_of_getLsbD_eq
  intro i hi
  simp only [BitVec.getLsbD_and, wordOfNibbles_bits, BitVec.getLsbD_shiftLeft,
    BitVec.getLsbD_setWidth]
  interval_cases i <;> simp

/-- The third nibble alone (what ROR ignores, R52). -/
theorem wordOfNibbles_nibble1_masked (op n2 n1 n0 : Nib) :
    wordOfNibbles op n2 n1 n0 &&& 0x00F0#16 = n1.setWidth 16 <<< 4 := by
  apply BitVec.eq_of_getLsbD_eq
  intro i hi
  simp only [BitVec.getLsbD_and, wordOfNibbles_bits, BitVec.getLsbD_shiftLeft,
    BitVec.getLsbD_setWidth]
  interval_cases i <;> simp

end Sys2Proof
end

