-- ==== Sys2Proof/Laws/State.lean ====
section
/-! SUPPORT. One lemma per field of State for each operation that updates a state, and for each answer of a handler. -/

namespace Sys2Proof.Machine

@[simp] theorem setIr_run (w : Word) (s : State) : (setIr w s).run = s.run := rfl
@[simp] theorem setIr_pc (w : Word) (s : State) : (setIr w s).pc = s.pc := rfl
@[simp] theorem setIr_ir (w : Word) (s : State) : (setIr w s).ir = w := rfl
@[simp] theorem setIr_x (w : Word) (s : State) : (setIr w s).x = s.x := rfl
@[simp] theorem setIr_mem (w : Word) (s : State) : (setIr w s).mem = s.mem := rfl
@[simp] theorem setIr_source (w : Word) (s : State) : (setIr w s).source = s.source := rfl
@[simp] theorem setIr_floatAdd (w : Word) (s : State) : (setIr w s).floatAdd = s.floatAdd := rfl

@[simp] theorem setSource_run (src : InstrSource) (s : State) : (setSource src s).run = s.run := rfl
@[simp] theorem setSource_pc (src : InstrSource) (s : State) : (setSource src s).pc = s.pc := rfl
@[simp] theorem setSource_ir (src : InstrSource) (s : State) : (setSource src s).ir = s.ir := rfl
@[simp] theorem setSource_x (src : InstrSource) (s : State) : (setSource src s).x = s.x := rfl
@[simp] theorem setSource_mem (src : InstrSource) (s : State) : (setSource src s).mem = s.mem := rfl
@[simp] theorem setSource_source (src : InstrSource) (s : State) : (setSource src s).source = src := rfl
@[simp] theorem setSource_floatAdd (src : InstrSource) (s : State) : (setSource src s).floatAdd = s.floatAdd := rfl

@[simp] theorem commit_run (h : HandlerResult) (s : State) :
    (commit h s).run = (if h.halt then .halted else s.run) := rfl
@[simp] theorem commit_pc (h : HandlerResult) (s : State) :
    (commit h s).pc = (if h.halt then s.pc else nextPc s.pc h.pc) := rfl
@[simp] theorem commit_ir (h : HandlerResult) (s : State) :
    (commit h s).ir = s.ir := rfl
@[simp] theorem commit_x (h : HandlerResult) (s : State) :
    (commit h s).x = h.x := rfl
@[simp] theorem commit_mem (h : HandlerResult) (s : State) :
    (commit h s).mem = h.mem := rfl
@[simp] theorem commit_source (h : HandlerResult) (s : State) :
    (commit h s).source = s.source := rfl
@[simp] theorem commit_floatAdd (h : HandlerResult) (s : State) :
    (commit h s).floatAdd = s.floatAdd := rfl

@[simp] theorem answerReg_x (s : State) (r : Nib) (v : Byte) : (answerReg s r v).x = s.x.write (regIndex r) v := rfl
@[simp] theorem answerReg_mem (s : State) (r : Nib) (v : Byte) : (answerReg s r v).mem = s.mem := rfl
@[simp] theorem answerReg_pc (s : State) (r : Nib) (v : Byte) : (answerReg s r v).pc = .advance := rfl
@[simp] theorem answerReg_halt (s : State) (r : Nib) (v : Byte) : (answerReg s r v).halt = false := rfl

@[simp] theorem answerByte_x (s : State) (xy v : Byte) : (answerByte s xy v).x = s.x := rfl
@[simp] theorem answerByte_mem (s : State) (xy v : Byte) : (answerByte s xy v).mem = s.mem.write (byteAddr xy) v := rfl
@[simp] theorem answerByte_pc (s : State) (xy v : Byte) : (answerByte s xy v).pc = .advance := rfl
@[simp] theorem answerByte_halt (s : State) (xy v : Byte) : (answerByte s xy v).halt = false := rfl

@[simp] theorem answerNothing_x (s : State) : (answerNothing s).x = s.x := rfl
@[simp] theorem answerNothing_mem (s : State) : (answerNothing s).mem = s.mem := rfl
@[simp] theorem answerNothing_pc (s : State) : (answerNothing s).pc = .advance := rfl
@[simp] theorem answerNothing_halt (s : State) : (answerNothing s).halt = false := rfl

@[simp] theorem answerJump_x (s : State) (c : Bool) (t : Byte) : (answerJump s c t).x = s.x := rfl
@[simp] theorem answerJump_mem (s : State) (c : Bool) (t : Byte) : (answerJump s c t).mem = s.mem := rfl
@[simp] theorem answerJump_pc (s : State) (c : Bool) (t : Byte) : (answerJump s c t).pc = (if c then .set t else .advance) := rfl
@[simp] theorem answerJump_halt (s : State) (c : Bool) (t : Byte) : (answerJump s c t).halt = false := rfl

@[simp] theorem answerHalt_x (s : State) : (answerHalt s).x = s.x := rfl
@[simp] theorem answerHalt_mem (s : State) : (answerHalt s).mem = s.mem := rfl
@[simp] theorem answerHalt_pc (s : State) : (answerHalt s).pc = .advance := rfl
@[simp] theorem answerHalt_halt (s : State) : (answerHalt s).halt = true := rfl

@[simp] theorem nextPc_advance (p : Byte) : nextPc p .advance = p + 1 := rfl
@[simp] theorem nextPc_set (p t : Byte) : nextPc p (.set t) = t := rfl

@[simp] theorem reset_run : State.reset.run = .running := rfl
@[simp] theorem reset_pc : State.reset.pc = 0x00 := rfl
@[simp] theorem reset_ir : State.reset.ir = 0x0000 := rfl
@[simp] theorem reset_x : State.reset.x = Storage.zero 16 := rfl
@[simp] theorem reset_mem : State.reset.mem = Storage.zero 256 := rfl
@[simp] theorem reset_source : State.reset.source = .stream [] [] := rfl
@[simp] theorem reset_floatAdd : State.reset.floatAdd = .default := rfl

end Sys2Proof.Machine
end

