-- ==== Sys2Proof/Laws/Storage.lean ====
section
/-! SUPPORT. The laws of Storage (10_state.md R11): a read after a write, what a write leaves alone, the canonical form is kept. -/

namespace Sys2Proof.Machine

/-! ### The list of cells -/

@[simp] theorem cellsGet_nil (a : Nat) : cellsGet [] a = 0x00 := rfl

theorem cellsGet_erase (cells : List Host.Cell) (a b : Nat) :
    cellsGet (cellsErase cells a) b = if b = a then 0x00 else cellsGet cells b := by
  induction cells with
  | nil => simp [cellsErase]
  | cons c rest ih =>
    obtain ⟨d, u⟩ := c
    by_cases hd : d = a
    · subst hd
      by_cases hb : b = d
      · subst hb
        simpa [cellsErase] using ih
      · simp [cellsErase, ih, hb, cellsGet, Ne.symm hb]
    · by_cases hb : d = b
      · subst hb
        simp [cellsErase, hd, cellsGet]
      · simp [cellsErase, hd, cellsGet, hb, ih]

theorem cellsGet_insert_self (cells : List Host.Cell) (a : Nat) (v : Byte)
    (h : ∀ c ∈ cells, c.1 ≠ a) : cellsGet (cellsInsert cells a v) a = v := by
  induction cells with
  | nil => simp [cellsInsert, cellsGet]
  | cons c rest ih =>
    obtain ⟨d, u⟩ := c
    have hd : d ≠ a := h (d, u) (by simp)
    have hrest := ih fun c hc => h c (by simp [hc])
    by_cases hlt : a < d <;> simp [cellsInsert, cellsGet, hlt, hd, hrest]

theorem cellsGet_insert_other (cells : List Host.Cell) {a b : Nat} (v : Byte) (h : b ≠ a) :
    cellsGet (cellsInsert cells a v) b = cellsGet cells b := by
  induction cells with
  | nil => simp [cellsInsert, cellsGet, Ne.symm h]
  | cons c rest ih =>
    obtain ⟨d, u⟩ := c
    by_cases hlt : a < d <;> simp [cellsInsert, cellsGet, hlt, Ne.symm h, ih]

theorem mem_cellsErase {cells : List Host.Cell} {a : Nat} {c : Host.Cell} :
    c ∈ cellsErase cells a ↔ c ∈ cells ∧ c.1 ≠ a := by
  induction cells with
  | nil => simp [cellsErase]
  | cons d rest ih =>
    obtain ⟨e, u⟩ := d
    by_cases he : e = a
    · simp only [cellsErase, he, if_true, ih, List.mem_cons]
      constructor
      · exact fun h => ⟨.inr h.1, h.2⟩
      · rintro ⟨rfl | h, hne⟩
        · exact absurd rfl hne
        · exact ⟨h, hne⟩
    · simp only [cellsErase, he, if_false, ih, List.mem_cons]
      constructor
      · rintro (rfl | h)
        · exact ⟨.inl rfl, he⟩
        · exact ⟨.inr h.1, h.2⟩
      · rintro ⟨h | h, hne⟩
        · exact .inl h
        · exact .inr ⟨h, hne⟩

theorem mem_cellsInsert {cells : List Host.Cell} {a : Nat} {v : Byte} {c : Host.Cell} :
    c ∈ cellsInsert cells a v ↔ c = (a, v) ∨ c ∈ cells := by
  induction cells with
  | nil => simp [cellsInsert]
  | cons d rest ih =>
    obtain ⟨e, u⟩ := d
    by_cases hlt : a < e
    · simp [cellsInsert, hlt]
    · simp [cellsInsert, hlt, ih, or_left_comm]

theorem cellsGet_set (cells : List Host.Cell) (a b : Nat) (v : Byte) :
    cellsGet (cellsSet cells a v) b = if b = a then v else cellsGet cells b := by
  unfold cellsSet
  split
  · next hv => simp [hv, cellsGet_erase]
  · by_cases hb : b = a
    · subst hb
      simp [cellsGet_insert_self _ _ _ fun c hc => (mem_cellsErase.mp hc).2]
    · simp [cellsGet_insert_other _ _ hb, cellsGet_erase, hb]

theorem cellsErase_pairwise {cells : List Host.Cell} (a : Nat)
    (h : cells.Pairwise (fun c d => c.1 < d.1)) :
    (cellsErase cells a).Pairwise (fun c d => c.1 < d.1) := by
  induction cells with
  | nil => simp [cellsErase]
  | cons d rest ih =>
    obtain ⟨e, u⟩ := d
    obtain ⟨hhead, hrest⟩ := List.pairwise_cons.mp h
    by_cases he : e = a
    · simpa [cellsErase, he] using ih hrest
    · simp only [cellsErase, he, if_false]
      exact List.pairwise_cons.mpr ⟨fun c hc => hhead c (mem_cellsErase.mp hc).1, ih hrest⟩

theorem cellsInsert_pairwise {cells : List Host.Cell} {a : Nat} (v : Byte)
    (hne : ∀ c ∈ cells, c.1 ≠ a) (h : cells.Pairwise (fun c d => c.1 < d.1)) :
    (cellsInsert cells a v).Pairwise (fun c d => c.1 < d.1) := by
  induction cells with
  | nil => simp [cellsInsert]
  | cons d rest ih =>
    obtain ⟨e, u⟩ := d
    obtain ⟨hhead, hrest⟩ := List.pairwise_cons.mp h
    by_cases hlt : a < e
    · simp only [cellsInsert, hlt, if_true]
      refine List.pairwise_cons.mpr ⟨fun c hc => ?_, h⟩
      rcases List.mem_cons.mp hc with rfl | hc
      · exact hlt
      · exact hlt.trans (hhead c hc)
    · simp only [cellsInsert, hlt, if_false]
      refine List.pairwise_cons.mpr ⟨fun c hc => ?_, ih (fun c hc => hne c (by simp [hc])) hrest⟩
      rcases mem_cellsInsert.mp hc with rfl | hc
      · have := hne (e, u) (by simp)
        simp only at this ⊢
        omega
      · exact hhead c hc

/-! ### Storage -/

theorem cellIndex_ofNat {n k : Nat} (h : k < n) : cellIndex n (k : Int) = some k := by
  simp [cellIndex, h]

theorem cellIndex_some {n k : Nat} {a : Int} (h : cellIndex n a = some k) : a = k ∧ k < n := by
  cases a with
  | ofNat j =>
    simp only [cellIndex] at h
    split at h
    · simp only [Option.some.injEq] at h
      subst h
      exact ⟨rfl, by assumption⟩
    · simp at h
  | negSucc j => simp [cellIndex] at h

theorem cellIndex_none {n : Nat} {a : Int} : cellIndex n a = none ↔ ¬inRange n a := by
  cases a with
  | ofNat j => simp [cellIndex, inRange]
  | negSucc j => simp [cellIndex, inRange]

/-- Every cell of the zero Storage reads 0x00 (R12), and so does every address outside it (R11). -/
@[simp] theorem read_zero (n : Nat) (a : Int) : (Storage.zero n).read a = 0x00 := by
  unfold Storage.read
  split <;> rfl

@[simp] theorem wf_zero (n : Nat) : (Storage.zero n).wf := by
  simp [Storage.wf, Storage.zero]

theorem read_outside {n : Nat} (m : Storage n) {a : Int} (h : ¬inRange n a) : m.read a = 0x00 := by
  simp [Storage.read, cellIndex_none.mpr h]

theorem write_outside {n : Nat} (m : Storage n) {a : Int} (v : Byte) (h : ¬inRange n a) :
    m.write a v = m := by
  simp [Storage.write, cellIndex_none.mpr h]

/-- Everything a read after a write can answer. -/
theorem read_write {n : Nat} (m : Storage n) (a b : Int) (v : Byte) :
    (m.write a v).read b = if b = a ∧ 0 ≤ a ∧ a < n then v else m.read b := by
  cases ha : cellIndex n a with
  | none =>
    have hout : ¬(0 ≤ a ∧ a < n) := cellIndex_none.mp ha
    simp [Storage.write, ha, hout]
  | some k =>
    obtain ⟨rfl, hk⟩ := cellIndex_some ha
    cases hb : cellIndex n b with
    | none =>
      have hne : b ≠ k := fun h => by simp [h, ha] at hb
      simp [Storage.read, hb, hne]
    | some j =>
      obtain ⟨rfl, -⟩ := cellIndex_some hb
      simp [Storage.write, Storage.read, ha, hb, cellsGet_set, hk]

theorem read_write_same {n : Nat} (m : Storage n) {a : Int} (v : Byte) (h : inRange n a) :
    (m.write a v).read a = v := by
  simp [read_write, h.1, h.2]

theorem read_write_other {n : Nat} (m : Storage n) {a b : Int} (v : Byte) (h : b ≠ a) :
    (m.write a v).read b = m.read b := by
  simp [read_write, h]

/-- Replacing a cell keeps the canonical form. -/
theorem wf_cellsSet {n k : Nat} {m : Storage n} (h : m.wf) (hk : k < n) (v : Byte) :
    (⟨cellsSet m.cells k v⟩ : Storage n).wf := by
  obtain ⟨hsorted, hcells⟩ := h
  have hkeep : ∀ c ∈ cellsErase m.cells k, c.1 < n ∧ c.2 ≠ 0 :=
    fun c hc => hcells c (mem_cellsErase.mp hc).1
  unfold cellsSet
  split
  · exact ⟨cellsErase_pairwise _ hsorted, hkeep⟩
  · next hv =>
    refine ⟨cellsInsert_pairwise v (fun c hc => (mem_cellsErase.mp hc).2)
      (cellsErase_pairwise _ hsorted), fun c hc => ?_⟩
    rcases mem_cellsInsert.mp hc with rfl | hc
    · exact ⟨hk, hv⟩
    · exact hkeep c hc

/-- Every write keeps the canonical form. -/
theorem wf_write {n : Nat} {m : Storage n} (h : m.wf) (a : Int) (v : Byte) : (m.write a v).wf := by
  unfold Storage.write
  split
  · next k hk => exact wf_cellsSet h (cellIndex_some hk).2 v
  · exact h

/-! ### Registers and bytes as instructions reach them (R42: always in range) -/

@[simp] theorem regIndex_nonneg (r : Nib) : 0 ≤ regIndex r := Int.natCast_nonneg _

@[simp] theorem regIndex_lt (r : Nib) : regIndex r < 16 := by
  have := r.isLt
  simp only [regIndex]
  omega

@[simp] theorem byteAddr_nonneg (xy : Byte) : 0 ≤ byteAddr xy := Int.natCast_nonneg _

@[simp] theorem byteAddr_lt (xy : Byte) : byteAddr xy < 256 := by
  have := xy.isLt
  simp only [byteAddr]
  omega

@[simp] theorem regIndex_inj {q r : Nib} : regIndex q = regIndex r ↔ q = r := by
  simp [regIndex, ← BitVec.toNat_inj]

@[simp] theorem byteAddr_inj {a b : Byte} : byteAddr a = byteAddr b ↔ a = b := by
  simp [byteAddr, ← BitVec.toNat_inj]

@[simp] theorem read_write_reg (x : RegFile) (q r : Nib) (v : Byte) :
    (x.write (regIndex r) v).read (regIndex q) = if q = r then v else x.read (regIndex q) := by
  simp [read_write]

@[simp] theorem read_write_byte (m : Memory) (xy : Byte) (a : Int) (v : Byte) :
    (m.write (byteAddr xy) v).read a = if a = byteAddr xy then v else m.read a := by
  simp [read_write]

end Sys2Proof.Machine
end

