-- ==== Sys2Proof/Laws/Exec.lean ====
section
/-! SUPPORT. What the shared operations and the step can do, said once: the provers cite these and need not unfold. -/

namespace Sys2Proof.Machine

@[simp] theorem finish_eq (h : HandlerResult) (s : State) : finish h s = .next (commit h s) := rfl

/-- The answers a handler can give (R61): nothing, one register, one byte of memory, a jump taken or not, the halt. -/
inductive AnswerShape (s : State) : HandlerResult → Prop where
  | nothing : AnswerShape s (answerNothing s)
  | reg (r : Nib) (v : Byte) : AnswerShape s (answerReg s r v)
  | byte (xy v : Byte) : AnswerShape s (answerByte s xy v)
  | jump (taken : Bool) (target : Byte) : AnswerShape s (answerJump s taken target)
  | halt : AnswerShape s (answerHalt s)

/-- Every instruction answers a next state, and it is its handler's answer applied. -/
theorem exec_shape (i : Instr) (s : State) :
    ∃ h, AnswerShape s h ∧ exec i s = .next (commit h s) := by
  cases i with
  | nop0 => exact ⟨_, .nothing, rfl⟩
  | loadm r xy => exact ⟨_, .reg _ _, rfl⟩
  | loadi r xy => exact ⟨_, .reg _ _, rfl⟩
  | store r xy => exact ⟨_, .byte _ _, rfl⟩
  | move r d => exact ⟨_, .reg _ _, rfl⟩
  | addi r a b => exact ⟨_, .reg _ _, rfl⟩
  | addf r a b => exact ⟨_, .reg _ _, rfl⟩
  | or r a b => exact ⟨_, .reg _ _, rfl⟩
  | and r a b => exact ⟨_, .reg _ _, rfl⟩
  | xor r a b => exact ⟨_, .reg _ _, rfl⟩
  | ror r x => exact ⟨_, .reg _ _, rfl⟩
  | jeq r xy => exact ⟨_, .jump _ _, rfl⟩
  | halt => exact ⟨_, .halt, rfl⟩
  | jgt r xy => exact ⟨_, .jump _ _, rfl⟩
  | nope => exact ⟨_, .nothing, rfl⟩
  | nopf => exact ⟨_, .nothing, rfl⟩

/-- A handler's answer keeps both storages in canonical form. -/
theorem AnswerShape.keeps_wf {s : State} {h : HandlerResult} (shape : AnswerShape s h)
    (hx : s.x.wf) (hm : s.mem.wf) : h.x.wf ∧ h.mem.wf := by
  cases shape with
  | nothing => exact ⟨hx, hm⟩
  | reg r v => exact ⟨wf_write hx _ _, hm⟩
  | byte xy v => exact ⟨hx, wf_write hm _ _⟩
  | jump c t => exact ⟨hx, hm⟩
  | halt => exact ⟨hx, hm⟩

/-! ### `reset()` -/

@[simp] theorem hostReset_run (s : State) : (hostReset s).run = .running := rfl
@[simp] theorem hostReset_pc (s : State) : (hostReset s).pc = 0x00 := rfl
@[simp] theorem hostReset_ir (s : State) : (hostReset s).ir = 0x0000 := rfl
@[simp] theorem hostReset_x (s : State) : (hostReset s).x = Storage.zero 16 := rfl
@[simp] theorem hostReset_mem (s : State) : (hostReset s).mem = Storage.zero 256 := rfl
@[simp] theorem hostReset_source (s : State) : (hostReset s).source = rewind s.source := rfl
@[simp] theorem hostReset_floatAdd (s : State) : (hostReset s).floatAdd = s.floatAdd := rfl

/-- What `reset()` gives depends on the program and on `FloatAdd` alone. -/
theorem hostReset_congr {s t : State} (hp : rewind s.source = rewind t.source) (hf : s.floatAdd = t.floatAdd) :
    hostReset s = hostReset t := by
  simp [hostReset, hp, hf]

/-! ### `execute` and the step -/

theorem execute_running {s : State} (w : Word) (h : s.run = .running) :
    execute w s = exec (decode w) (setIr w s) := by
  simp [execute, h]

theorem execute_halted {s : State} (w : Word) (h : s.run = .halted) : execute w s = .fault .halted := by
  simp [execute, h]

/-- The four things a step can meet: HALTED, an exhausted source, a word of a stream, a word of a program store. -/
theorem step_cases (s : State) :
    (s.run = .halted ∧ step s = .fault .halted) ∨
    (s.run = .running ∧ nextWord s.source s.pc = none ∧ step s = .fault .exhausted) ∨
    (∃ w src, s.run = .running ∧ nextWord s.source s.pc = some (w, src) ∧
      step s = exec (decode w) (setIr w (setSource src s))) := by
  cases hr : s.run with
  | halted => exact .inl ⟨rfl, by simp [step, driverStep, hr]⟩
  | running =>
    cases hn : nextWord s.source s.pc with
    | none => exact .inr (.inl ⟨rfl, rfl, by simp [step, driverStep, hr, hn]⟩)
    | some p =>
      refine .inr (.inr ⟨p.1, p.2, rfl, rfl, ?_⟩)
      simp [step, driverStep, hr, hn, execute]

/-- A source keeps its form when a word is taken from it. -/
theorem nextWord_wellFormed {src src' : InstrSource} {pc : Byte} {w : Word}
    (h : nextWord src pc = some (w, src')) (hs : src.wellFormed = true) : src'.wellFormed = true := by
  cases src with
  | stream passed pending =>
    cases pending with
    | nil => simp [nextWord] at h
    | cons v rest =>
      simp only [nextWord, Option.some.injEq, Prod.mk.injEq] at h
      simp [← h.2, InstrSource.wellFormed]
  | pcIndexed prog =>
    simp only [nextWord] at h
    split at h
    · simp only [Option.some.injEq, Prod.mk.injEq] at h
      rwa [← h.2]
    · simp at h

/-- Passing a word leaves the program, and where a run from reset begins, as they were. -/
theorem rewind_of_nextWord {src src' : InstrSource} {pc : Byte} {w : Word}
    (h : nextWord src pc = some (w, src')) :
    rewind src' = rewind src ∧ programOf src' = programOf src := by
  cases src with
  | stream passed pending =>
    cases pending with
    | nil => simp [nextWord] at h
    | cons v rest =>
      simp only [nextWord, Option.some.injEq, Prod.mk.injEq] at h
      simp [← h.2, rewind, programOf]
  | pcIndexed prog =>
    simp only [nextWord] at h
    split at h
    · simp only [Option.some.injEq, Prod.mk.injEq] at h
      simp [← h.2]
    · simp at h

@[simp] theorem programOf_rewind (src : InstrSource) : programOf (rewind src) = programOf src := by
  cases src <;> rfl

@[simp] theorem rewind_rewind (src : InstrSource) : rewind (rewind src) = rewind src := by
  cases src <;> rfl

/-- At `pc = 0` a rewound source gives the program's first word, and none exactly when the program is empty (R97). -/
theorem nextWord_rewind (src : InstrSource) : (nextWord (rewind src) 0x00).map (·.1) = (programOf src).head? := by
  cases src with
  | stream passed pending =>
    simp only [rewind, programOf]
    cases passed ++ pending <;> rfl
  | pcIndexed prog => cases prog <;> rfl

/-- The placed word is the next one. -/
theorem nextWord_placeWord (src : InstrSource) (pc : Byte) (w : Word) :
    (nextWord (placeWord src pc w) pc).map (·.1) = some w := by
  cases src with
  | stream passed pending => rfl
  | pcIndexed prog =>
    by_cases h : pc.toNat < prog.length
    · simp [placeWord, nextWord, h]
    · have hlen : (prog ++ List.replicate (pc.toNat - prog.length) (0 : Word)).length = pc.toNat := by
        simp only [List.length_append, List.length_replicate]
        omega
      simp only [placeWord, h, if_false, nextWord]
      rw [List.getElem?_append_right (by omega), hlen]
      simp

end Sys2Proof.Machine
end

