-- ==== Sys2Proof/Laws/PerInstr.lean ====
section
/-! SUPPORT. Per-instruction families (LAWS.json). `RowOfEncoding`: the word `encode` writes for an instruction is of exactly the
opcode-map row that has the instruction's mnemonic (30_encoding.md R55), and its bits without a role are 0 (R56). -/

namespace Sys2Proof

/-- The encoded word lies in the row of the instruction's own mnemonic and in no other, and its ignored bits are 0. -/
def Laws.RowOfEncoding.Statement (i : Instr) : Prop :=
  (opcodeMap.filter (fun row => row.covers (encode i))).map (·.mnemonic) = [i.mnemonic] ∧
    encode i &&& ignoredMask i = 0

/-- A word of form RXY is of the row of its opcode. -/
theorem rows_of_wordRXY (op r : Nib) (xy : Byte) :
    opcodeMap.filter (fun row => row.covers (wordRXY op r xy)) =
      opcodeMap.filter (fun row => op.setWidth 16 <<< 12 == row.pattern) := by
  simp [opcodeMap, OpcodeRow.covers, wordRXY_masked, List.filter_cons]

/-- A word of four nibbles is of the row of its opcode. -/
theorem rows_of_wordOfNibbles (op n2 n1 n0 : Nib) :
    opcodeMap.filter (fun row => row.covers (wordOfNibbles op n2 n1 n0)) =
      opcodeMap.filter (fun row => op.setWidth 16 <<< 12 == row.pattern) := by
  simp [opcodeMap, OpcodeRow.covers, wordOfNibbles_masked, List.filter_cons]

namespace Laws.RowOfEncoding

theorem nop0 : Statement .nop0 := ⟨by decide, by decide⟩

theorem loadm (r : Nib) (xy : Byte) : Statement (.loadm r xy) :=
  ⟨by rw [encode, rows_of_wordRXY]; rfl, by simp [ignoredMask]⟩

theorem loadi (r : Nib) (xy : Byte) : Statement (.loadi r xy) :=
  ⟨by rw [encode, rows_of_wordRXY]; rfl, by simp [ignoredMask]⟩

theorem store (r : Nib) (xy : Byte) : Statement (.store r xy) :=
  ⟨by rw [encode, rows_of_wordRXY]; rfl, by simp [ignoredMask]⟩

theorem move (r d : Nib) : Statement (.move r d) :=
  ⟨by rw [encode, rows_of_wordOfNibbles]; rfl,
    by simp [ignoredMask, encode, wordOfNibbles_nibble2_masked]⟩

theorem addi (r a b : Nib) : Statement (.addi r a b) :=
  ⟨by rw [encode, rows_of_wordOfNibbles]; rfl, by simp [ignoredMask]⟩

theorem addf (r a b : Nib) : Statement (.addf r a b) :=
  ⟨by rw [encode, rows_of_wordOfNibbles]; rfl, by simp [ignoredMask]⟩

theorem or (r a b : Nib) : Statement (.or r a b) :=
  ⟨by rw [encode, rows_of_wordOfNibbles]; rfl, by simp [ignoredMask]⟩

theorem and (r a b : Nib) : Statement (.and r a b) :=
  ⟨by rw [encode, rows_of_wordOfNibbles]; rfl, by simp [ignoredMask]⟩

theorem xor (r a b : Nib) : Statement (.xor r a b) :=
  ⟨by rw [encode, rows_of_wordOfNibbles]; rfl, by simp [ignoredMask]⟩

theorem ror (r x : Nib) : Statement (.ror r x) :=
  ⟨by rw [encode, rows_of_wordOfNibbles]; rfl,
    by simp [ignoredMask, encode, wordOfNibbles_nibble1_masked]⟩

theorem jeq (r : Nib) (xy : Byte) : Statement (.jeq r xy) :=
  ⟨by rw [encode, rows_of_wordRXY]; rfl, by simp [ignoredMask]⟩

theorem halt : Statement .halt := ⟨by decide, by decide⟩

theorem jgt (r : Nib) (xy : Byte) : Statement (.jgt r xy) :=
  ⟨by rw [encode, rows_of_wordRXY]; rfl, by simp [ignoredMask]⟩

theorem nope : Statement .nope := ⟨by decide, by decide⟩

theorem nopf : Statement .nopf := ⟨by decide, by decide⟩

end Laws.RowOfEncoding

end Sys2Proof
end

