-- ==== Sys2Proof/Tests/Slice0.lean ====
section
/-! SUPPORT. The model's own tests. Expected values come from the spec: the words of 30_encoding.md and the vectors V<n> and E<n> of
95_test_vectors.md; a test names its source. Then one witness for the hypotheses of each statement that has some. -/

namespace Sys2Proof.Tests

open Sys2Proof.Machine

/-- A running state with a program counter and the listed nonzero registers and bytes. -/
def st (pc : Byte) (regs mem : List Host.Cell) : State :=
  { State.reset with pc := pc, x := ⟨regs⟩, mem := ⟨mem⟩ }

/-- The next state of an outcome. -/
def nextOf (o : Host.Outcome State Fault Refusal) : Option State :=
  match o with
  | .next t => some t
  | .fault _ => none
  | .refused _ => none

/-- Register `r` and `pc` after `execute(w)`. -/
def regAfter (w : Word) (s : State) (r : Nib) : Option (Byte × Byte) :=
  (nextOf (execute w s)).map fun t => (readReg t r, t.pc)

/-- The byte at `a` and `pc` after `execute(w)`. -/
def memAfter (w : Word) (s : State) (a : Byte) : Option (Byte × Byte) :=
  (nextOf (execute w s)).map fun t => (readByte t a, t.pc)

/-- `pc`, run state and `ir` after `execute(w)`, when registers and memory are as before. -/
def pcAfter (w : Word) (s : State) : Option (Byte × RunState × Word) :=
  (nextOf (execute w s)).bind fun t =>
    if t.x = s.x ∧ t.mem = s.mem then some (t.pc, t.run, t.ir) else none

/-! ### Well-formedness: what each check refuses -/

theorem test_empty_program_store_refused : (InstrSource.pcIndexed []).wellFormed = false := by decide

theorem test_program_store_of_257_words_refused :
    (InstrSource.pcIndexed (List.replicate 257 0x0000)).wellFormed = false := by
  rw [InstrSource.wellFormed, List.length_replicate]
  rfl

theorem test_program_store_of_256_words_accepted :
    (InstrSource.pcIndexed (List.replicate 256 0x0000)).wellFormed = true := by
  rw [InstrSource.wellFormed, List.length_replicate]
  rfl

theorem test_every_instruction_wellFormed (i : Instr) : i.wellFormed = true := by
  cases i <;> rfl

theorem test_unsorted_storage_refused : ¬(⟨[(2, 1), (1, 1)]⟩ : Memory).wf := by decide

theorem test_listed_zero_refused : ¬(⟨[(2, 0)]⟩ : Memory).wf := by decide

theorem test_address_outside_refused : ¬(⟨[(16, 1)]⟩ : RegFile).wf := by decide

/-! ### Decoding: a word per opcode, from the encodings of R55, and ignored nibbles of R56 -/

theorem test_decode_nop0 : decode 0b0000_0000_0000_0000 = .nop0 ∧ decode 0x0FFF = .nop0 := by decide
theorem test_decode_loadm : decode 0b0001_0001_1010_1011 = .loadm 1 0xAB := by decide
theorem test_decode_loadi : decode 0b0010_0010_1111_1111 = .loadi 2 0xFF := by decide
theorem test_decode_store : decode 0b0011_0011_1000_0000 = .store 3 0x80 := by decide
theorem test_decode_move : decode 0b0100_0000_0001_0010 = .move 1 2 ∧ decode 0x4F12 = .move 1 2 := by
  decide
theorem test_decode_addi : decode 0b0101_0011_0001_0010 = .addi 3 1 2 := by decide
theorem test_decode_addf : decode 0b0110_0011_0001_0010 = .addf 3 1 2 := by decide
theorem test_decode_or : decode 0b0111_0001_0010_0011 = .or 1 2 3 := by decide
theorem test_decode_and : decode 0b1000_0001_0010_0011 = .and 1 2 3 := by decide
theorem test_decode_xor : decode 0b1001_0001_0010_0011 = .xor 1 2 3 := by decide
theorem test_decode_ror : decode 0b1010_0010_0000_0011 = .ror 2 3 ∧ decode 0xA253 = .ror 2 3 := by
  decide
theorem test_decode_jeq : decode 0b1011_0001_0100_0000 = .jeq 1 0x40 := by decide
theorem test_decode_halt : decode 0b1100_0000_0000_0000 = .halt ∧ decode 0xC123 = .halt := by decide
theorem test_decode_jgt : decode 0b1101_0010_0000_1101 = .jgt 2 0x0D := by decide
theorem test_decode_nope : decode 0b1110_0000_0000_0000 = .nope ∧ decode 0xE123 = .nope := by decide
theorem test_decode_nopf : decode 0b1111_0000_0000_0000 = .nopf ∧ decode 0xFFFF = .nopf := by decide

/-- R59's own words, encoded. -/
theorem test_encode_words :
    encode (.loadm 1 0xAB) = 0x11AB ∧ encode (.move 1 2) = 0x4012 ∧ encode (.addi 3 1 2) = 0x5312 ∧
      encode (.ror 2 4) = 0xA204 ∧ encode .halt = 0xC000 := by decide

theorem test_opcodeMap_rows_apart :
    opcodeMap.Pairwise (fun p q => p.pattern ≠ q.pattern) ∧ ∀ p ∈ opcodeMap, p.mask = 0xF000 := by
  decide

theorem test_parse_either_case :
    parseWord ['1', '1', 'a', 'B'] = .ok 0x11AB ∧ parseWord ['2', '1', 'G', '4'] = .error .notHexDigit ∧
      parseWord ['2', '1', '0'] = .error .wrongLength := by decide

/-- R59's table: `MOVE Rd, Rs` is written destination first, word `40sd`. -/
theorem test_asmText :
    (decode 0x4012).asmText = "MOVE R2, R1" ∧ (decode 0x11AB).asmText = "LOADM R1, [0xAB]" ∧
      (decode 0xA204).asmText = "ROR R2, 4" := by decide +kernel

/-! ### One step each (95_test_vectors.md section 2) -/

/-- V2. -/
theorem test_nop0_wraps : pcAfter 0x0000 (st 0xFF [] []) = some (0x00, .running, 0x0000) := by decide
/-- V3. -/
theorem test_nope : pcAfter 0xE123 (st 0x10 [(1, 0x11)] []) = some (0x11, .running, 0xE123) := by decide
/-- R66's example. -/
theorem test_nopf : pcAfter 0xFFFF (st 0x10 [] []) = some (0x11, .running, 0xFFFF) := by decide

/-- V8: the last register, the last address. -/
theorem test_loadm_top : regAfter 0x1FFF (st 0x10 [] [(0xFF, 0x01)]) 15 = some (0x01, 0x11) := by decide
/-- V6. -/
theorem test_loadm_unwritten : regAfter 0x11AB (st 0x10 [(1, 0x77)] []) 1 = some (0x00, 0x11) := by
  decide
/-- V9. -/
theorem test_loadi : regAfter 0x22FF (st 0x10 [] []) 2 = some (0xFF, 0x11) := by decide
/-- V12. -/
theorem test_store_top : memAfter 0x30FF (st 0x10 [(0, 0xA5)] []) 0xFF = some (0xA5, 0x11) := by decide
/-- V13. -/
theorem test_store_zero : memAfter 0x3380 (st 0x10 [] [(0x80, 0x12)]) 0x80 = some (0x00, 0x11) := by
  decide
/-- V15: the direction. -/
theorem test_move_direction :
    regAfter 0x4021 (st 0x10 [(1, 0x7E), (2, 0x33)] []) 1 = some (0x33, 0x11) := by decide
/-- V17: the ignored nibble. -/
theorem test_move_ignored : regAfter 0x4F12 (st 0x10 [(1, 0x7E)] []) 2 = some (0x7E, 0x11) := by decide

/-- V19. -/
theorem test_addi_wraps :
    regAfter 0x5312 (st 0x10 [(1, 0xFF), (2, 0x01)] []) 3 = some (0x00, 0x11) := by decide
/-- V22: R = S = T. -/
theorem test_addi_doubles : regAfter 0x5111 (st 0x10 [(1, 0x81)] []) 1 = some (0x02, 0x11) := by decide
/-- V27. -/
theorem test_addf_signs :
    regAfter 0x6312 (st 0x10 [(1, 0x58), (2, 0xC8)] []) 3 = some (0x48, 0x11) := by decide
/-- V38: saturation, R = S = T. -/
theorem test_addf_saturates : regAfter 0x6111 (st 0x10 [(1, 0x78)] []) 1 = some (0x7F, 0x11) := by
  decide
/-- V-FENC. -/
theorem test_floatEncode :
    floatEncode 17 = 0x18 ∧ floatEncode (-17) = 0x98 ∧ floatEncode 1919 = 0x7E ∧
      floatEncode 1920 = 0x7F ∧ floatEncode (-3840) = 0xFF ∧ floatEncode 0 = 0x00 := by decide
/-- V-FENC and R72's examples. -/
theorem test_floatUnits :
    floatUnits 0x58 = 256 ∧ floatUnits 0x7F = 1920 ∧ floatUnits 0x01 = 1 ∧ floatUnits 0x80 = 0 ∧
      floatUnits 0xD8 = -256 := by decide
/-- V42. -/
theorem test_or : regAfter 0x7123 (st 0x10 [(2, 0xCC), (3, 0xAA)] []) 1 = some (0xEE, 0x11) := by decide
/-- V44. -/
theorem test_and : regAfter 0x8123 (st 0x10 [(2, 0xCC), (3, 0xAA)] []) 1 = some (0x88, 0x11) := by decide
/-- V47. -/
theorem test_xor : regAfter 0x9123 (st 0x10 [(2, 0xCC), (3, 0xAA)] []) 1 = some (0x66, 0x11) := by decide
/-- V50. -/
theorem test_ror : regAfter 0xA203 (st 0x10 [(2, 0x96)] []) 2 = some (0xD2, 0x11) := by decide
/-- V57: by 15 is by 7. -/
theorem test_ror_mod_8 : regAfter 0xA20F (st 0x10 [(2, 0x96)] []) 2 = some (0x2D, 0x11) := by decide

/-- V59. -/
theorem test_jeq_taken :
    pcAfter 0xB140 (st 0x03 [(0, 0x05), (1, 0x05)] []) = some (0x40, .running, 0xB140) := by decide
/-- V62. -/
theorem test_jeq_not_taken_wraps :
    pcAfter 0xB140 (st 0xFF [(1, 0x01)] []) = some (0x00, .running, 0xB140) := by decide
/-- V64: unsigned. -/
theorem test_jgt_unsigned :
    pcAfter 0xD20D (st 0x0A [(0, 0x7F), (2, 0x80)] []) = some (0x0D, .running, 0xD20D) := by decide
/-- V66. -/
theorem test_jgt_equal :
    pcAfter 0xD20D (st 0x0A [(0, 0x42), (2, 0x42)] []) = some (0x0B, .running, 0xD20D) := by decide
/-- V69. -/
theorem test_halt : pcAfter 0xC000 (st 0x04 [] []) = some (0x04, .halted, 0xC000) := by decide

/-- V71: Rejected, unchanged. -/
theorem test_rejected_when_halted :
    hostExecute 0x2100 { st 0x04 [(1, 0x05)] [] with run := .halted } =
      ({ st 0x04 [(1, 0x05)] [] with run := .halted }, .rejected) := by decide

/-! ### Storage, source and step -/

/-- E1. -/
theorem test_storage_outside :
    readMem (st 0 [] [(0, 0x12)]) 256 = 0 ∧ readMem (st 0 [] [(0, 0x12)]) (-1) = 0 ∧
      (st 0 [] [(0, 0x12)]).mem.write 256 0x55 = (st 0 [] [(0, 0x12)]).mem ∧
      readRegAt (st 0 [] []) 16 = 0 := by decide

theorem test_write_keeps_form :
    ((⟨[(1, 5), (3, 7)]⟩ : Memory).write 2 6).cells = [(1, 5), (2, 6), (3, 7)] ∧
      ((⟨[(1, 5), (3, 7)]⟩ : Memory).write 1 0).cells = [(3, 7)] := by decide

/-- R97: the first word of each source runs with `pc = 0`. -/
theorem test_step_from_reset :
    (nextOf (step { State.reset with source := .stream [] [0x2105, 0xC000] })).map
        (fun t => (readReg t 1, t.pc, t.source)) = some (0x05, 0x01, .stream [0x2105] [0xC000]) ∧
      (nextOf (step { State.reset with source := .pcIndexed [0x2105, 0xC000] })).map
        (fun t => (readReg t 1, t.pc)) = some (0x05, 0x01) := by decide

/-- R97 after a run: a stream whose first word was passed begins at it again. -/
theorem test_reset_rewinds_the_stream :
    (hostReset { st 0x01 [(1, 0x05)] [] with source := .stream [0x2105] [0xC000] }) =
        { State.reset with source := .stream [] [0x2105, 0xC000] } ∧
      (nextOf (step (hostReset { st 0x01 [] [] with run := .halted, source := .stream [0x2105] [0xC000] }))).map
        (fun t => (readReg t 1, t.pc, t.run)) = some (0x05, 0x01, .running) := by decide

/-- P5: under `PcIndexed` the jump to 0xFF exhausts the source; under `Stream` the next word still comes. -/
theorem test_exhausted_program_store :
    runEnd { st 0xFF [] [] with source := .pcIndexed [0xB0FF, 0x0000, 0xE123, 0xC000] } =
        some .exhausted ∧
      runEnd { st 0xFF [] [] with source := .stream [0xB0FF] [0x0000, 0xE123, 0xC000] } = none := by decide

theorem test_withFetchWord_runs :
    (nextOf (step (State.reset.withFetchWord 16 0x22FF))).map (fun t => (readReg t 2, t.ir)) =
        some (0xFF, 0x22FF) ∧
      decodeTableWord 16 0x22FF = some (.loadi 2 0xFF) := by decide

/-- A word placed past the end of a program store. -/
theorem test_placeWord_pads :
    placeWord (.pcIndexed [0x2105]) 0x03 0xC000 = .pcIndexed [0x2105, 0x0000, 0x0000, 0xC000] := by
  decide

/-! ### Witnesses: the hypotheses of each statement can be met together -/

/-- The state most witnesses start from: R1 = 5, R2 = 3, one byte of memory. -/
def w0 : State := st 0x10 [(1, 0x05), (2, 0x03)] [(0xAB, 0x5A)]

theorem witness_IgnoredNibblesDoNotChangeTheStep :
    w0.run = .running ∧
      (0x4012 : Word) ||| ignoredMask (decode 0x4012) = 0x4F12 ||| ignoredMask (decode 0x4012) := by
  decide

theorem witness_ResetLeavesTheStateOfTheTable :
    hostReset { w0 with run := .halted } = State.reset := by decide

theorem witness_ObservationOutsideTheRangeReadsZero :
    ¬((0 : Int) ≤ 256 ∧ (256 : Int) < 256) ∧ ¬((0 : Int) ≤ -1 ∧ (-1 : Int) < 16) ∧
      ¬((0 : Int) ≤ 16 ∧ (16 : Int) < 16) := by decide

theorem witness_CanonicalStoragesThatReadAlikeAreEqual :
    (⟨[(255, 7)]⟩ : Memory).wf ∧ ((Storage.zero 256).write 255 7).wf ∧
      ∀ a : Int, (⟨[(255, 7)]⟩ : Memory).read a = ((Storage.zero 256).write 255 7).read a := by
  have same : (⟨[(255, 7)]⟩ : Memory) = (Storage.zero 256).write 255 7 := by decide
  exact ⟨by decide, by decide, fun a => by rw [same]⟩

theorem witness_StorageWriteChangesItsCellAlone :
    (0 : Int) ≤ 255 ∧ (255 : Int) < (256 : Nat) ∧ (⟨[(255, 7)]⟩ : Memory).wf := by decide

/-- `Advanced` has its case at 0xFE, and 0xFF is the wrap's. -/
theorem witness_Advanced :
    pcAfter 0x0000 (st 0xFE [] []) = some (0xFF, .running, 0x0000) ∧
      pcAfter 0x0000 (st 0xFF [] []) = some (0x00, .running, 0x0000) := by decide

theorem witness_MoveCopiesTheFirstRegisterToTheSecond :
    regAfter 0x4011 w0 1 = some (0x05, 0x11) := by decide

theorem witness_AddFloatWritesFloatAdd :
    w0.floatAdd = .default ∧ { w0 with floatAdd := .implementation }.floatAdd = .implementation := by
  decide

/-- Both clauses: the operands stand in different registers of different states; a step answers a next state. -/
theorem witness_FloatAddDependsOnItsOperandsAlone :
    w0.floatAdd = (st 0 [(3, 0x03), (4, 0x05)] []).floatAdd ∧
      readReg w0 1 = readReg (st 0 [(3, 0x03), (4, 0x05)] []) 4 ∧
      readReg w0 2 = readReg (st 0 [(3, 0x03), (4, 0x05)] []) 3 ∧
      (nextOf (step { w0 with source := .stream [] [0x6312] })).isSome = true := by decide

theorem witness_RotateRightMovesEveryBit :
    (0 : Nib).toNat % 8 = 0 ∧ (8 : Nib).toNat % 8 = 0 ∧ (15 : Nib).toNat % 8 ≠ 0 := by decide

/-- R0 = 0 here: R3 is equal, R1 is not; `B0XY` is always taken. -/
theorem witness_JumpIfEqualComparesWithR0 :
    readReg w0 3 = readReg w0 0 ∧ readReg w0 1 ≠ readReg w0 0 := by decide

theorem witness_JumpIfGreaterComparesUnsigned :
    (readReg w0 1).toNat > (readReg w0 0).toNat ∧ ¬(readReg w0 3).toNat > (readReg w0 0).toNat := by
  decide

theorem witness_UnassignedOpcodesOnlyAdvance :
    decode 0x0000 = .nop0 ∧ decode 0xE000 = .nope ∧ decode 0xF000 = .nopf := by decide

theorem witness_EveryWordRunsOnARunningCore :
    w0.run = .running ∧ (nextOf (execute 0xFFFF w0)).isSome = true := by decide

theorem witness_StepRunsTheDecodedInstruction :
    w0.run = .running ∧ { w0 with source := .stream [0xE000] [0x22FF] }.source = .stream [0xE000] [0x22FF] ∧
      [(0x0000 : Word), 0x22FF][({ w0 with pc := 0x01 } : State).pc.toNat]? = some 0x22FF := by decide

theorem witness_PlacedWordIsTheNextInstruction :
    w0.run = .running ∧ (0x22FF : Word) = BitVec.ofNat 16 (0x22FF % 2 ^ 16) ∧
      w0.source = .stream [] [] := by decide

theorem witness_ExecuteIsAcceptedExactlyWhenRunning :
    w0.run = .running ∧ { w0 with run := .halted }.run = .halted := by decide

theorem witness_HaltedIsFinal : { w0 with run := .halted }.run = .halted := by decide

theorem witness_OnlyHaltHaltsAndOnlyResetResumes :
    w0.run = .running ∧ (nextOf (execute 0xC000 w0)).isSome = true ∧
      (nextOf (exec .nop0 { w0 with run := .halted })).isSome = true := by decide

/-- The invariant holds with a program store, and the step is one. -/
theorem witness_StepKeepsTheInvariant :
    Inv { w0 with pc := 0x00, source := .pcIndexed [0x31AB] } ∧
      (nextOf (step { w0 with pc := 0x00, source := .pcIndexed [0x31AB] })).isSome = true := by decide

/-- Two different states that agree but for `ir`. -/
theorem witness_InstructionRegisterIsNeverRead :
    AgreeButIr w0 { w0 with ir := 0x1234 } ∧ w0 ≠ { w0 with ir := 0x1234 } :=
  ⟨⟨rfl, rfl, rfl, rfl, rfl, rfl⟩, by decide⟩

theorem witness_HandlersReadOnlyTheStorages :
    w0.x = { w0 with pc := 0x20, ir := 0xFFFF }.x ∧ w0.mem = { w0 with pc := 0x20, ir := 0xFFFF }.mem ∧
      w0.floatAdd = { w0 with pc := 0x20, ir := 0xFFFF }.floatAdd ∧
      w0.run = { w0 with pc := 0x20, ir := 0xFFFF }.run := by decide

theorem witness_NoStepChangesAnInstructionWord :
    (nextOf (step { w0 with source := .stream [0x0000] [0x3180] })).isSome = true ∧
      (nextOf (step { w0 with pc := 0x00, source := .pcIndexed [0x3180] })).isSome = true := by decide

theorem witness_OneStepIsTheSameUnderBothSources :
    w0.run = .running ∧
      [(0x0000 : Word), 0x3180][({ w0 with pc := 0x01 } : State).pc.toNat]? = some 0x3180 := by decide

/-- E2's three words. -/
theorem witness_StraightLineProgramsRunAlikeUnderBothSources :
    { w0 with pc := 0x00 }.run = .running ∧ { w0 with pc := 0x00 }.pc = 0x00 ∧
      [(0x2500 : Word), 0x35AB, 0x16AB].length ≤ 256 ∧
      (∀ w ∈ [(0x2500 : Word), 0x35AB, 0x16AB], leavesOrder (decode w) = false) ∧
      3 ≤ [(0x2500 : Word), 0x35AB, 0x16AB].length := by
  refine ⟨by decide, by decide, by decide, fun w hw => ?_, by decide⟩
  have straight : [(0x2500 : Word), 0x35AB, 0x16AB].all (fun w => !leavesOrder (decode w)) = true := by
    decide
  simpa using List.all_eq_true.mp straight w hw

/-- The same at the boundary: 256 words and 256 steps, after which `pc` is 0x00 again. -/
theorem witness_StraightLineProgramOf256Words :
    (List.replicate 256 (0xE000 : Word)).length ≤ 256 ∧
      (∀ w ∈ List.replicate 256 (0xE000 : Word), leavesOrder (decode w) = false) ∧
      256 ≤ (List.replicate 256 (0xE000 : Word)).length ∧ BitVec.ofNat 8 256 = 0x00 := by
  have hlen := List.length_replicate (n := 256) (a := (0xE000 : Word))
  refine ⟨hlen.le, fun w hw => ?_, hlen.ge, rfl⟩
  rw [List.eq_of_mem_replicate hw]
  rfl

/-- Both cases of the first step after a reset: a program with a first word, some of it passed, and an empty one. -/
theorem witness_FirstStepAfterResetRunsTheFirstWord :
    programOf { w0 with source := .stream [0x2105] [0xC000] }.source = [0x2105, 0xC000] ∧
      programOf { w0 with source := .pcIndexed [0x2105, 0xC000] }.source = [0x2105, 0xC000] ∧
      programOf w0.source = [] := by decide

/-- Two steps of a stream, the second HALT. -/
theorem witness_ResetForgetsTheRun :
    (nextOf (runSteps 2 { w0 with source := .stream [] [0x2105, 0xC000] })).isSome = true := by decide

end Sys2Proof.Tests
end

/-! SUPPORT. What is an instruction (00_scope.md R8 and R9): the text of a word read back, the texts accepted and rejected, and
every word legal on a running core. -/

namespace Sys2Proof

open Sys2Proof.Machine

/-! ### A word and its nibbles -/

/-- A word is its four nibbles put together (R47). -/
@[simp] theorem wordOfNibbles_nibbles (w : Word) :
    wordOfNibbles (opNibble w) (nibble2 w) (nibble1 w) (nibble0 w) = w := by
  apply BitVec.eq_of_getLsbD_eq
  intro i hi
  simp only [wordOfNibbles_bits, opNibble, nibble2, nibble1, nibble0, BitVec.getLsbD_extractLsb']
  interval_cases i <;> simp

/-- The rows a word is of are those of its top nibble (R48, R55). -/
theorem rows_of_word (w : Word) :
    opcodeMap.filter (fun row => row.covers w) = opcodeMap.filter (fun row => row.op == opNibble w) := by
  have pattern_iff_op : ∀ op : Nib, ∀ row ∈ opcodeMap,
      (op.setWidth 16 <<< 12 == row.pattern) = (row.op == op) := by decide
  calc opcodeMap.filter (fun row => row.covers w)
      = opcodeMap.filter (fun row => (opNibble w).setWidth 16 <<< 12 == row.pattern) := by
        rw [← rows_of_wordOfNibbles _ (nibble2 w) (nibble1 w) (nibble0 w), wordOfNibbles_nibbles]
    _ = opcodeMap.filter (fun row => row.op == opNibble w) :=
        List.filter_congr (pattern_iff_op (opNibble w))

/-- Each opcode has one row in the map (R55). -/
theorem one_row_of_opcode (op : Nib) : (opcodeMap.filter (fun row => row.op == op)).length = 1 := by
  revert op
  decide

/-! ### The digits of a text (R8, R59) -/

/-- The upper-case digit of a nibble has that nibble's value. -/
@[simp] theorem hexValue_hexDigit (n : Nib) : hexValue (hexDigit n) = some n := by
  revert n
  decide

/-- The lower-case digit of a nibble has that value too (R59). -/
@[simp] theorem hexValue_toLower_hexDigit (n : Nib) : hexValue (hexDigit n).toLower = some n := by
  revert n
  decide

/-- The characters with a value are the hexadecimal digits of either case. -/
theorem hexValue_isSome_iff (c : Char) :
    (hexValue c).isSome ↔ c ∈ ['0', '1', '2', '3', '4', '5', '6', '7', '8', '9',
      'A', 'B', 'C', 'D', 'E', 'F', 'a', 'b', 'c', 'd', 'e', 'f'] := by
  constructor
  · intro h
    have ranges : (48 ≤ c.toNat ∧ c.toNat ≤ 57) ∨ (65 ≤ c.toNat ∧ c.toNat ≤ 70) ∨
        (97 ≤ c.toNat ∧ c.toNat ≤ 102) := by
      by_contra outside
      simp only [not_or] at outside
      simp [hexValue, outside] at h
    rw [← Char.ofNat_toNat c]
    generalize c.toNat = n at ranges
    obtain ⟨lo, hi⟩ | ⟨lo, hi⟩ | ⟨lo, hi⟩ := ranges <;> interval_cases n <;> decide
  · have digits : ['0', '1', '2', '3', '4', '5', '6', '7', '8', '9', 'A', 'B', 'C', 'D', 'E', 'F',
        'a', 'b', 'c', 'd', 'e', 'f'].all (fun d => (hexValue d).isSome) = true := by decide
    exact List.all_eq_true.mp digits c

/-! ### Reading a text -/

/-- Four characters with a value each are the word of these nibbles. -/
theorem parseWord_of_hexValues {c3 c2 c1 c0 : Char} {op n2 n1 n0 : Nib} (h3 : hexValue c3 = some op)
    (h2 : hexValue c2 = some n2) (h1 : hexValue c1 = some n1) (h0 : hexValue c0 = some n0) :
    parseWord [c3, c2, c1, c0] = .ok (wordOfNibbles op n2 n1 n0) := by
  simp only [parseWord, h3, h2, h1, h0]

/-- Four characters with the values of a word's nibbles are that word, the first digit bits 15 to 12. -/
theorem parseWord_of_nibbles {w : Word} {c3 c2 c1 c0 : Char} (h3 : hexValue c3 = some (opNibble w))
    (h2 : hexValue c2 = some (nibble2 w)) (h1 : hexValue c1 = some (nibble1 w))
    (h0 : hexValue c0 = some (nibble0 w)) : parseWord [c3, c2, c1, c0] = .ok w := by
  rw [parseWord_of_hexValues h3 h2 h1 h0, wordOfNibbles_nibbles]

/-- What a text of four characters reads as: a word where each has a value, else the rejection of a character. -/
theorem parseWord_four_cases (c3 c2 c1 c0 : Char) :
    ((∀ c ∈ [c3, c2, c1, c0], (hexValue c).isSome) ∧ ∃ w, parseWord [c3, c2, c1, c0] = .ok w) ∨
    ((¬∀ c ∈ [c3, c2, c1, c0], (hexValue c).isSome) ∧
      parseWord [c3, c2, c1, c0] = .error .notHexDigit) := by
  by_cases digits : ∀ c ∈ [c3, c2, c1, c0], (hexValue c).isSome
  · have values := digits
    simp only [List.forall_mem_cons, Option.isSome_iff_exists] at values
    obtain ⟨⟨op, h3⟩, ⟨n2, h2⟩, ⟨n1, h1⟩, ⟨n0, h0⟩, -⟩ := values
    exact .inl ⟨digits, _, parseWord_of_hexValues h3 h2 h1 h0⟩
  · refine .inr ⟨digits, ?_⟩
    simp only [parseWord]
    split
    next h3 h2 h1 h0 => exact absurd (by simp [h3, h2, h1, h0]) digits
    next => rfl

/-- A text without exactly four characters is of wrong length, whatever they are (log 13). -/
theorem parseWord_of_length_ne {cs : List Char} (h : cs.length ≠ 4) :
    parseWord cs = .error .wrongLength := by
  unfold parseWord
  split
  next => exact absurd rfl h
  next => rfl

/-! ### The statements -/

/-- Settles O7: the four digits have the values of the four nibbles, in either case. -/
theorem hexTextOfAWordParsesBack : Obligations.HexTextOfAWordParsesBack := fun _ =>
  ⟨parseWord_of_nibbles (hexValue_hexDigit _) (hexValue_hexDigit _) (hexValue_hexDigit _)
      (hexValue_hexDigit _),
    parseWord_of_nibbles (hexValue_toLower_hexDigit _) (hexValue_toLower_hexDigit _)
      (hexValue_toLower_hexDigit _) (hexValue_toLower_hexDigit _),
    rfl⟩

/-- Settles O8: a text of four characters is read digit by digit, any other is of wrong length. -/
theorem onlyFourHexDigitsAreAnInstruction : Obligations.OnlyFourHexDigitsAreAnInstruction := by
  intro cs
  simp only [← hexValue_isSome_iff]
  by_cases four : cs.length = 4
  · obtain ⟨c3, c2, c1, c0, rfl⟩ := List.length_eq_four.mp four
    obtain ⟨digits, w, ok⟩ | ⟨digits, rejected⟩ := parseWord_four_cases c3 c2 c1 c0
    · exact ⟨iff_of_true ⟨w, ok⟩ ⟨four, digits⟩, by simp [ok]⟩
    · exact ⟨iff_of_false (by simp [rejected]) (digits ·.2), by simp [rejected]⟩
  · have rejected := parseWord_of_length_ne four
    exact ⟨iff_of_false (by simp [rejected]) (four ·.1), iff_of_true rejected four⟩

/-- Settles O36: the top nibble of a word names its one row, and every instruction answers a next state. -/
theorem everyWordRunsOnARunningCore : Obligations.EveryWordRunsOnARunningCore := by
  intro w
  constructor
  · rw [rows_of_word, one_row_of_opcode]
  · intro s running
    obtain ⟨h, -, reached⟩ := exec_shape (decode w) (setIr w s)
    exact ⟨_, (execute_running w running).trans reached⟩

end Sys2Proof

/-! SUPPORT. The core's operations for the host and the step (10_state.md R25 to R33): what `execute` accepts and what it does, where a run
ends, what is observed, and the two instruction sources run side by side. -/

namespace Sys2Proof

open Sys2Proof.Machine

/-! ### An instruction's effect, and `execute` -/

/-- What every instruction does to `ir`, `run` and `pc`: `ir` stays, HALT alone halts, and what is neither jump nor HALT advances. -/
theorem exec_effect (i : Instr) (s : State) :
    ∃ t, exec i s = .next t ∧ t.ir = s.ir ∧ t.run = (if i = .halt then .halted else s.run) ∧
      (leavesOrder i = false → t.pc = s.pc + 1) := by
  cases i with
  | halt => exact ⟨_, rfl, rfl, rfl, nofun⟩
  | jeq r xy => exact ⟨_, rfl, rfl, rfl, nofun⟩
  | jgt r xy => exact ⟨_, rfl, rfl, rfl, nofun⟩
  | _ => exact ⟨_, rfl, rfl, rfl, fun _ => rfl⟩

/-- No instruction reads or writes the instruction source (R61). -/
theorem exec_setSource {i : Instr} {s t : State} (effect : exec i s = .next t) (src : InstrSource) :
    exec i (setSource src s) = .next (setSource src t) := by
  cases i <;> cases effect <;> rfl

/-- What an accepted call does to `ir`, `run` and `pc` (R60). -/
theorem execute_effect (w : Word) {s : State} (running : s.run = .running) :
    ∃ t, execute w s = .next t ∧ t.ir = w ∧ t.run = (if decode w = .halt then .halted else .running) ∧
      (leavesOrder (decode w) = false → t.pc = s.pc + 1) := by
  rw [execute_running w running, ← running]
  exact exec_effect (decode w) (setIr w s)

theorem hostExecute_of_next {w : Word} {s t : State} (accepted : execute w s = .next t) :
    hostExecute w s = (t, .accepted) := by
  simp [hostExecute, accepted]

theorem hostExecute_halted (w : Word) {s : State} (halted : s.run = .halted) :
    hostExecute w s = (s, .rejected) := by
  simp [hostExecute, execute_halted w halted]

/-! ### The step -/

/-- A step passes the source's next word to `execute`, and the source is afterwards the one without that word (R32). -/
theorem step_setSource {s t : State} {w : Word} {src src' : InstrSource} (running : s.run = .running)
    (fetched : nextWord src s.pc = some (w, src')) (accepted : execute w s = .next t) :
    step (setSource src s) = .next (setSource src' t) := by
  rw [execute_running w running] at accepted
  calc step (setSource src s)
      = execute w (setSource src' s) := by simp [step, driverStep, running, fetched, setSource]
    _ = exec (decode w) (setSource src' (setIr w s)) := execute_running w running
    _ = .next (setSource src' t) := exec_setSource accepted src'

/-- A step overwrites `ir` without reading it (R20, D4). -/
theorem step_setIr (w : Word) (s : State) : step (setIr w s) = step s := by
  simp only [step, driverStep, setIr_run, setIr_source, setIr_pc]
  rfl

theorem eq_setIr_of_agreeButIr {s s' : State} (agree : AgreeButIr s s') : s' = setIr s'.ir s := by
  obtain ⟨run, pc, x, mem, source, floatAdd⟩ := agree
  cases s'
  simp_all [setIr]

/-! ### The ends of a run (R33) -/

theorem runEnd_halted {s : State} (halted : s.run = .halted) : runEnd s = some .halted := by
  simp [runEnd, halted]

/-- A running core has ended its run exactly when its source has no next word. -/
theorem runEnd_running {s : State} (running : s.run = .running) :
    runEnd s = if nextWord s.source s.pc = none then some .exhausted else none := by
  simp only [runEnd, running]
  cases s.source with
  | stream passed pending => cases pending <;> rfl
  | pcIndexed prog =>
    by_cases ended : prog.length ≤ s.pc.toNat
    · simp [nextWord, ended]
    · simp [nextWord, ended, List.getElem?_eq_getElem (not_le.mp ended)]

/-! ### The observation (R29) -/

theorem observe_mem (s : State) :
    (observe s).mem = (List.range 256).map fun a : Nat => s.mem.read (a : Int) := by
  simp only [observe, memSize, Storage.size, readMem]

theorem observe_regs (s : State) :
    (observe s).regs = (List.range 16).map fun i : Nat => s.x.read (i : Int) := by
  simp only [observe, regCount, Storage.size, readRegAt]

/-! ### Two instruction sources -/

theorem nextWord_pcIndexed {prog : List Word} {pc : Byte} {w : Word} (fetch : prog[pc.toNat]? = some w) :
    nextWord (.pcIndexed prog) pc = some (w, .pcIndexed prog) := by
  simp [nextWord, fetch]

/-- States that differ only in the instruction source are the same core state. -/
theorem sameCoreState_setSource (src src' : InstrSource) (s : State) :
    SameCoreState (setSource src s) (setSource src' s) :=
  ⟨rfl, rfl, rfl, rfl, rfl, rfl⟩

/-- The two sources side by side, from any point of a straight-line program: while the stream has passed as many words as `pc` says, its
next word is the program store's at `pc`, so both runs do the same to the core. -/
theorem runSteps_straightLine (k : Nat) (passed pending : List Word) (s : State) (running : s.run = .running)
    (inOrder : s.pc = BitVec.ofNat 8 passed.length) (bound : (passed ++ pending).length ≤ 256)
    (straight : ∀ w ∈ pending, leavesOrder (decode w) = false) (inside : k ≤ pending.length) :
    ∃ t, runSteps k (setSource (.stream passed pending) s) =
        .next (setSource (.stream (passed ++ pending.take k) (pending.drop k)) t) ∧
      runSteps k (setSource (.pcIndexed (passed ++ pending)) s) =
        .next (setSource (.pcIndexed (passed ++ pending)) t) ∧
      t.pc = BitVec.ofNat 8 (passed.length + k) := by
  induction k generalizing passed pending s with
  | zero => exact ⟨s, by simp [runSteps], rfl, inOrder⟩
  | succ k ih =>
    cases pending with
    | nil => simp at inside
    | cons w rest =>
      obtain ⟨straightW, straightRest⟩ := List.forall_mem_cons.mp straight
      obtain ⟨t, accepted, -, run, advanced⟩ := execute_effect w running
      have notHalt : decode w ≠ .halt := fun halt => by simp [halt, leavesOrder] at straightW
      have fetch : (passed ++ w :: rest)[s.pc.toNat]? = some w := by
        have index : s.pc.toNat = passed.length := by
          simp only [List.length_append, List.length_cons] at bound
          simp only [inOrder, BitVec.toNat_ofNat]
          omega
        simp [index]
      have streamStep := step_setSource (src := .stream passed (w :: rest)) running rfl accepted
      have storeStep := step_setSource running (nextWord_pcIndexed fetch) accepted
      obtain ⟨u, streamRun, storeRun, pc⟩ := ih (passed ++ [w]) rest t
        (by simp [run, notHalt]) (by simp [advanced straightW, inOrder, BitVec.ofNat_add])
        (by simpa using bound) straightRest (by simpa using inside)
      refine ⟨u, ?_, ?_, ?_⟩
      · simpa [runSteps, streamStep] using streamRun
      · simpa [runSteps, storeStep] using storeRun
      · simpa [Nat.add_assoc, Nat.add_comm 1 k] using pc

/-! ### The statements -/

/-- Settles O39: a running core's call has an effect that leaves the word in `ir`, a halted core's is the fault. -/
theorem executeIsAcceptedExactlyWhenRunning : Obligations.ExecuteIsAcceptedExactlyWhenRunning := by
  intro w s
  cases run : s.run with
  | running =>
    obtain ⟨t, accepted, ir, -⟩ := execute_effect w run
    simp [hostExecute_of_next accepted, accepted, ir]
  | halted => simp [hostExecute_halted w run, execute_halted w run]

/-- Settles O41: each instruction's effect on `run`, and reset's. -/
theorem onlyHaltHaltsAndOnlyResetResumes : Obligations.OnlyHaltHaltsAndOnlyResetResumes := by
  refine ⟨fun w s t running reached => ?_, fun i s t halted reached => ?_, hostReset_run⟩
  · obtain ⟨u, accepted, -, run, -⟩ := execute_effect w running
    cases accepted.symm.trans reached
    simp [run]
  · obtain ⟨u, effect, -, run, -⟩ := exec_effect i s
    cases effect.symm.trans reached
    simp [run, halted]

/-- Settles O42: the three things a step can meet are the two ends of a run and a next word, which every instruction runs. -/
theorem stepStopsOnlyAtTheEndOfARun : Obligations.StepStopsOnlyAtTheEndOfARun := by
  intro s
  obtain ⟨halted, stopped⟩ | ⟨running, exhausted, stopped⟩ | ⟨w, src, running, fetched, ran⟩ := step_cases s
  · simp [stopped, runEnd_halted halted]
  · simp [stopped, runEnd_running running, exhausted]
  · obtain ⟨h, -, reached⟩ := exec_shape (decode w) (setIr w (setSource src s))
    simp [ran, reached, runEnd_running running, fetched]

/-- Settles O44: of two states that differ only in `ir` one is the other with `ir` written. -/
theorem instructionRegisterIsNeverRead : Obligations.InstructionRegisterIsNeverRead := by
  intro s s' agree
  rw [eq_setIr_of_agreeButIr agree, step_setIr]

/-- Settles O48: either source passes the word to the same call of `execute`. -/
theorem oneStepIsTheSameUnderBothSources : Obligations.OneStepIsTheSameUnderBothSources := by
  intro s w passed ws prog running fetch
  obtain ⟨t, accepted, -⟩ := execute_effect w running
  exact ⟨_, _, step_setSource running rfl accepted,
    step_setSource running (nextWord_pcIndexed fetch) accepted, sameCoreState_setSource _ _ t, rfl, rfl⟩

/-- Settles O49: the runs side by side, with no word passed at the start. -/
theorem straightLineProgramsRunAlikeUnderBothSources :
    Obligations.StraightLineProgramsRunAlikeUnderBothSources := by
  intro ws s k running start bound straight inside
  obtain ⟨t, streamRun, storeRun, pc⟩ := runSteps_straightLine k [] ws s running start bound straight inside
  exact ⟨_, _, streamRun, storeRun, sameCoreState_setSource _ _ t, by simpa using pc, rfl, rfl⟩

/-- Settles O12: both storages are accessed through `Storage.read` and `Storage.write` (R11). -/
theorem observationOutsideTheRangeReadsZero : Obligations.ObservationOutsideTheRangeReadsZero := fun s _ =>
  ⟨fun outside => ⟨read_outside s.mem outside, fun v => write_outside s.mem v outside⟩,
    fun outside => ⟨read_outside s.x outside, fun v => write_outside s.x v outside⟩, rfl, rfl⟩

/-- Settles O15: the observation lists each storage in order of address, and a byte or a nibble is an address in range. -/
theorem observationShowsAllButIr : Obligations.ObservationShowsAllButIr := by
  intro s w
  refine ⟨rfl, by simp [observe, isHalted], ?_, ?_, fun xy => ?_, fun r => ?_, rfl⟩
  · simp [observe_mem]
  · simp [observe_regs]
  · simp [observe_mem, readByte, byteAddr, xy.isLt]
  · simp [observe_regs, readReg, regIndex, r.isLt]

end Sys2Proof

/-! SUPPORT. Memory and the register file (20_memory.md): a canonical Storage is what it reads, every read sees the last write, and a step
changes neither the form of the state nor a word of the program. -/

namespace Sys2Proof

open Sys2Proof.Machine

/-! ### A Storage is what it reads -/

/-- A list of cells in rising order answers at an address the byte it lists there. -/
theorem cellsGet_of_mem {cells : List Host.Cell} {c : Host.Cell}
    (rising : cells.Pairwise (fun c d => c.1 < d.1)) (listed : c ∈ cells) : cellsGet cells c.1 = c.2 := by
  induction cells with
  | nil => simp at listed
  | cons d rest ih =>
    obtain ⟨above, risingRest⟩ := List.pairwise_cons.mp rising
    rcases List.mem_cons.mp listed with rfl | listed
    · simp [cellsGet]
    · simp [cellsGet, (above c listed).ne, ih risingRest listed]

/-- What is not 0x00 at an address is listed there. -/
theorem mem_of_cellsGet_ne_zero {cells : List Host.Cell} {a : Nat} (nonzero : cellsGet cells a ≠ 0) :
    (a, cellsGet cells a) ∈ cells := by
  induction cells with
  | nil => simp at nonzero
  | cons d rest ih =>
    obtain ⟨b, v⟩ := d
    by_cases here : b = a
    · simp [cellsGet, here]
    · simp only [cellsGet, here, if_false] at nonzero ⊢
      exact List.mem_cons_of_mem _ (ih nonzero)

theorem read_inside {n k : Nat} (m : Storage n) (inside : k < n) : m.read k = cellsGet m.cells k := by
  simp [Storage.read, cellIndex_ofNat inside]

/-- The cells of a canonical Storage are those of its addresses that do not hold 0x00, each with the byte read there. -/
theorem mem_cells_iff {n : Nat} {m : Storage n} (canonical : m.wf) (c : Host.Cell) :
    c ∈ m.cells ↔ c.2 ≠ 0 ∧ c.1 < n ∧ m.read c.1 = c.2 := by
  obtain ⟨rising, cells⟩ := canonical
  constructor
  · intro listed
    obtain ⟨inside, nonzero⟩ := cells c listed
    exact ⟨nonzero, inside, (read_inside m inside).trans (cellsGet_of_mem rising listed)⟩
  · rintro ⟨nonzero, inside, read⟩
    rw [read_inside m inside] at read
    have found := mem_of_cellsGet_ne_zero (read ▸ nonzero)
    rwa [read] at found

/-- Canonical Storages that read alike list the same cells in the same order (log 10). -/
theorem storage_ext {n : Nat} {m m' : Storage n} (canonical : m.wf) (canonical' : m'.wf)
    (alike : ∀ a : Int, m.read a = m'.read a) : m = m' := by
  have sameCells : m.cells = m'.cells :=
    canonical.1.eq_of_mem_iff canonical'.1 fun c => by
      rw [mem_cells_iff canonical, mem_cells_iff canonical', alike]
  cases m
  cases m'
  exact congrArg _ sameCells

/-! ### What an instruction does to the two storages -/

/-- R80's rotation is the rotation of the table. -/
theorem rotr8_eq_rotateRight (v : Byte) (n : Nat) : rotr8 v n = v.rotateRight n := by
  by_cases whole : n % 8 = 0 <;> simp [rotr8, BitVec.rotateRight, BitVec.rotateRightAux, whole]

/-- Every instruction's storages are the old ones with the writes of the tables of R15 and R38, and no others. -/
theorem exec_storages (i : Instr) (s : State) :
    ∃ t, exec i s = .next t ∧
      t.x = (regWriteOf i s).elim s.x (fun p => s.x.write (regIndex p.1) p.2) ∧
      t.mem = (memWriteOf i s).elim s.mem (fun p => s.mem.write (byteAddr p.1) p.2) := by
  cases i with
  | ror r x => exact ⟨_, rfl, congrArg (s.x.write (regIndex r)) (rotr8_eq_rotateRight _ _), rfl⟩
  | _ => exact ⟨_, rfl, rfl, rfl⟩

theorem regWriteOf_setIr (i : Instr) (w : Word) (s : State) : regWriteOf i (setIr w s) = regWriteOf i s := by
  cases i <;> rfl

theorem memWriteOf_setIr (i : Instr) (w : Word) (s : State) : memWriteOf i (setIr w s) = memWriteOf i s := by
  cases i <;> rfl

/-- An accepted call does the decoded instruction's writes to the storages. -/
theorem hostExecute_storages (w : Word) {s : State} (running : s.run = .running) :
    (hostExecute w s).1.x = (regWriteOf (decode w) s).elim s.x (fun p => s.x.write (regIndex p.1) p.2) ∧
    (hostExecute w s).1.mem =
      (memWriteOf (decode w) s).elim s.mem (fun p => s.mem.write (byteAddr p.1) p.2) := by
  obtain ⟨t, effect, regs, mem⟩ := exec_storages (decode w) (setIr w s)
  rw [regWriteOf_setIr] at regs
  rw [memWriteOf_setIr] at mem
  rw [hostExecute_of_next ((execute_running w running).trans effect)]
  exact ⟨regs, mem⟩

/-! ### The last write among accepted calls (R43) -/

theorem acceptedCalls_running (w : Word) (ws : List Word) {s : State} (running : s.run = .running) :
    acceptedCalls (w :: ws) s = (decode w, s) :: acceptedCalls ws (hostExecute w s).1 := by
  simp [acceptedCalls, running]

theorem acceptedCalls_halted (w : Word) (ws : List Word) {s : State} (halted : s.run = .halted) :
    acceptedCalls (w :: ws) s = acceptedCalls ws s := by
  simp [acceptedCalls, halted]

/-- A later write hides the first call's. -/
theorem lastMemWrite_cons (a : Byte) (c : Instr × State) (rest : List (Instr × State)) :
    lastMemWrite a (c :: rest) = (lastMemWrite a rest).or (lastMemWrite a [c]) := by
  simp only [lastMemWrite]
  cases lastMemWrite a rest <;> rfl

theorem lastRegWrite_cons (q : Nib) (c : Instr × State) (rest : List (Instr × State)) :
    lastRegWrite q (c :: rest) = (lastRegWrite q rest).or (lastRegWrite q [c]) := by
  simp only [lastRegWrite]
  cases lastRegWrite q rest <;> rfl

/-- One accepted call: the byte it stored, or the byte from before. -/
theorem readMem_hostExecute (a : Byte) (w : Word) {s : State} (running : s.run = .running) :
    readMem (hostExecute w s).1 a.toNat = (lastMemWrite a [(decode w, s)]).getD (readMem s a.toNat) := by
  change (hostExecute w s).1.mem.read (byteAddr a) =
    (lastMemWrite a [(decode w, s)]).getD (s.mem.read (byteAddr a))
  rw [(hostExecute_storages w running).2]
  cases written : memWriteOf (decode w) s with
  | none => simp [lastMemWrite, written]
  | some p =>
    by_cases here : p.1 = a
    · simp [lastMemWrite, written, here]
    · simp [lastMemWrite, written, here, Ne.symm here]

/-- One accepted call: the byte it wrote to the register, or the byte from before. -/
theorem readReg_hostExecute (q : Nib) (w : Word) {s : State} (running : s.run = .running) :
    readReg (hostExecute w s).1 q = (lastRegWrite q [(decode w, s)]).getD (readReg s q) := by
  simp only [readReg]
  rw [(hostExecute_storages w running).1]
  cases written : regWriteOf (decode w) s with
  | none => simp [lastRegWrite, written]
  | some p =>
    by_cases here : p.1 = q
    · simp [lastRegWrite, written, here]
    · simp [lastRegWrite, written, here, Ne.symm here]

/-- A cell that each accepted call leaves with the byte that call wrote, or else as it was, holds after any calls what the last write
wrote: a Rejected call writes nothing (R63), and a later write hides an earlier one. -/
theorem read_executeAll {read : State → Byte} {last : List (Instr × State) → Option Byte} (last_nil : last [] = none)
    (last_cons : ∀ c rest, last (c :: rest) = (last rest).or (last [c]))
    (one_call : ∀ (w : Word) {s : State}, s.run = .running →
      read (hostExecute w s).1 = (last [(decode w, s)]).getD (read s))
    (ws : List Word) (s : State) : read (executeAll ws s) = (last (acceptedCalls ws s)).getD (read s) := by
  induction ws generalizing s with
  | nil => simp [executeAll, acceptedCalls, last_nil]
  | cons w ws ih =>
    rw [executeAll, ih]
    cases run : s.run with
    | running => rw [acceptedCalls_running w ws run, last_cons, Option.getD_or, one_call w run]
    | halted => rw [acceptedCalls_halted w ws run, hostExecute_halted w run]

theorem readMem_executeAll (ws : List Word) (s : State) (a : Byte) :
    readMem (executeAll ws s) a.toNat = (lastMemWrite a (acceptedCalls ws s)).getD (readMem s a.toNat) :=
  read_executeAll (read := fun s => readMem s a.toNat) rfl (lastMemWrite_cons a) (readMem_hostExecute a) ws s

theorem readReg_executeAll (ws : List Word) (s : State) (q : Nib) :
    readReg (executeAll ws s) q = (lastRegWrite q (acceptedCalls ws s)).getD (readReg s q) :=
  read_executeAll (read := fun s => readReg s q) rfl (lastRegWrite_cons q) (readReg_hostExecute q) ws s

/-! ### What a step leaves of the state and of the program -/

/-- A step that reaches a next state took a word from the source and applied a handler's answer. -/
theorem step_next {s t : State} (reached : step s = .next t) :
    ∃ w src h, nextWord s.source s.pc = some (w, src) ∧ AnswerShape (setIr w (setSource src s)) h ∧
      t = commit h (setIr w (setSource src s)) := by
  obtain ⟨-, stopped⟩ | ⟨-, -, stopped⟩ | ⟨w, src, -, fetched, ran⟩ := step_cases s
  · simp [stopped] at reached
  · simp [stopped] at reached
  · obtain ⟨h, shape, effect⟩ := exec_shape (decode w) (setIr w (setSource src s))
    cases reached.symm.trans (ran.trans effect)
    exact ⟨w, src, h, fetched, shape, rfl⟩

/-- A program store is not changed by taking a word from it. -/
theorem source_of_nextWord_pcIndexed {prog : List Word} {pc : Byte} {w : Word} {src : InstrSource}
    (fetched : nextWord (.pcIndexed prog) pc = some (w, src)) : src = .pcIndexed prog := by
  cases fetch : prog[pc.toNat]? with
  | none => simp [nextWord, fetch] at fetched
  | some v =>
    cases (nextWord_pcIndexed fetch).symm.trans fetched
    rfl

/-- A stream passes its first pending word and counts it as passed. -/
theorem source_of_nextWord_stream {passed ws : List Word} {pc : Byte} {w : Word} {src : InstrSource}
    (fetched : nextWord (.stream passed ws) pc = some (w, src)) :
    ws = w :: ws.tail ∧ src = .stream (passed ++ [w]) ws.tail := by
  cases ws with
  | nil => simp [nextWord] at fetched
  | cons v rest =>
    cases fetched
    exact ⟨rfl, rfl⟩

/-! ### The statements -/

/-- Settles O43: a handler's answer keeps both canonical forms, and a source keeps its own when a word is taken from it. -/
theorem stepKeepsTheInvariant : Obligations.StepKeepsTheInvariant := by
  rintro s t ⟨mem, regs, source⟩ reached
  obtain ⟨w, src, h, fetched, shape, rfl⟩ := step_next reached
  obtain ⟨regs', mem'⟩ := shape.keeps_wf regs mem
  exact ⟨mem', regs', nextWord_wellFormed fetched source⟩

/-- Settles O14: the laws of a read after a write, and a canonical Storage with a cell written back reads as before everywhere. -/
theorem storageWriteChangesItsCellAlone : Obligations.StorageWriteChangesItsCellAlone := by
  intro n m a v lower upper
  refine ⟨read_write_same m v ⟨lower, upper⟩, fun b other => read_write_other m v other, fun canonical => ?_⟩
  refine storage_ext (wf_write canonical a _) canonical fun b => ?_
  by_cases here : b = a
  · rw [here, read_write_same m _ ⟨lower, upper⟩]
  · exact read_write_other m _ here

/-- Settles O46: the last write of each kind, from any state and from reset, where every cell reads 0x00. -/
theorem readsSeeTheLastWrite : Obligations.ReadsSeeTheLastWrite := by
  refine ⟨readMem_executeAll, readReg_executeAll, fun ws a => ?_, fun ws q => ?_⟩
  · rw [readMem_executeAll, readMem, reset_mem, read_zero]
  · rw [readReg_executeAll, readReg, reset_x, read_zero]

/-- Settles O47: taking a word leaves the program, and a handler's answer leaves the source and `ir`. -/
theorem noStepChangesAnInstructionWord : Obligations.NoStepChangesAnInstructionWord := by
  intro s t reached
  obtain ⟨w, src, h, fetched, -, rfl⟩ := step_next reached
  refine ⟨(rewind_of_nextWord fetched).2, fun prog store => ?_, fun passed ws stream => ?_⟩
  · rw [store] at fetched
    exact source_of_nextWord_pcIndexed fetched
  · rw [stream] at fetched
    obtain ⟨pending, counted⟩ := source_of_nextWord_stream fetched
    exact ⟨w, pending, counted, rfl⟩

end Sys2Proof

/-! SUPPORT. Decoding and encoding against each other (30_encoding.md R47 to R56): what a word is outside the nibbles its instruction
ignores, what its opcode alone decides, and that the ignored nibbles change no step. -/

namespace Sys2Proof

open Sys2Proof.Machine

/-! ### A word outside its ignored nibbles, form by form -/

/-- A mask made of four nibbles acts on each nibble of a word. -/
theorem and_wordOfNibbles (w : Word) (m3 m2 m1 m0 : Nib) :
    w &&& wordOfNibbles m3 m2 m1 m0 =
      wordOfNibbles (opNibble w &&& m3) (nibble2 w &&& m2) (nibble1 w &&& m1) (nibble0 w &&& m0) := by
  apply BitVec.eq_of_getLsbD_eq
  intro i hi
  simp only [BitVec.getLsbD_and, wordOfNibbles_bits, opNibble, nibble2, nibble1, nibble0,
    BitVec.getLsbD_extractLsb']
  interval_cases i <;> simp

/-- The library's fact about `allOnes`, in the numeral that `simp` leaves of a mask's nibble. -/
theorem nibble_and_ones (n : Nib) : n &&& 15#4 = n := BitVec.and_allOnes

/-- The opcode is the same as the number `decode` dispatches on and as the nibble `encode` writes. -/
theorem opNibble_of_toNat {w : Word} {op : Nat} (opcode : (opNibble w).toNat = op) :
    opNibble w = BitVec.ofNat 4 op := by
  simp [← opcode]

/-- Form RXY ignores nothing (R49). -/
theorem masked_formRXY {w : Word} {op : Nat} (opcode : (opNibble w).toNat = op) :
    w &&& ~~~0x0000 = wordRXY (BitVec.ofNat 4 op) (nibble2 w) (lowByte w) := by
  rw [← opNibble_of_toNat opcode]
  apply BitVec.eq_of_getLsbD_eq
  intro i hi
  simp only [wordRXY_bits, opNibble, nibble2, lowByte, BitVec.getLsbD_extractLsb']
  interval_cases i <;> simp

/-- Form RST ignores nothing (R50). -/
theorem masked_formRST {w : Word} {op : Nat} (opcode : (opNibble w).toNat = op) :
    w &&& ~~~0x0000 = wordOfNibbles (BitVec.ofNat 4 op) (nibble2 w) (nibble1 w) (nibble0 w) := by
  rw [← opNibble_of_toNat opcode, wordOfNibbles_nibbles]
  exact BitVec.and_allOnes

/-- Form 0RS ignores the second nibble (R51). -/
theorem masked_form0RS {w : Word} {op : Nat} (opcode : (opNibble w).toNat = op) :
    w &&& ~~~0x0F00 = wordOfNibbles (BitVec.ofNat 4 op) 0 (nibble1 w) (nibble0 w) := by
  have mask : ~~~(0x0F00 : Word) = wordOfNibbles 0xF 0 0xF 0xF := by decide
  rw [mask, and_wordOfNibbles, opNibble_of_toNat opcode]
  simp [nibble_and_ones]

/-- Form R0X ignores the third nibble (R52). -/
theorem masked_formR0X {w : Word} {op : Nat} (opcode : (opNibble w).toNat = op) :
    w &&& ~~~0x00F0 = wordOfNibbles (BitVec.ofNat 4 op) (nibble2 w) 0 (nibble0 w) := by
  have mask : ~~~(0x00F0 : Word) = wordOfNibbles 0xF 0xF 0 0xF := by decide
  rw [mask, and_wordOfNibbles, opNibble_of_toNat opcode]
  simp [nibble_and_ones]

/-- The form without operands ignores all but the opcode (R53). -/
theorem masked_formBare {w : Word} {op : Nat} (opcode : (opNibble w).toNat = op) :
    w &&& ~~~0x0FFF = wordOfNibbles (BitVec.ofNat 4 op) 0 0 0 := by
  have mask : ~~~(0x0FFF : Word) = wordOfNibbles 0xF 0 0 0 := by decide
  rw [mask, and_wordOfNibbles, opNibble_of_toNat opcode]
  simp [nibble_and_ones]

/-! ### What the opcode alone decides (R48) -/

theorem ignoredMask_congr {w v : Word} (same : opNibble w = opNibble v) :
    ignoredMask (decode w) = ignoredMask (decode v) := by
  simp only [decode, same]
  split <;> rfl

theorem mnemonic_congr {w v : Word} (same : opNibble w = opNibble v) :
    (decode w).mnemonic = (decode v).mnemonic := by
  simp only [decode, same]
  split <;> rfl

/-- No instruction ignores a bit of the opcode. -/
theorem opNibble_masked (w : Word) (i : Instr) : opNibble (w &&& ~~~ignoredMask i) = opNibble w := by
  have keeps : (~~~ignoredMask i).extractLsb' 12 4 = 15#4 := by cases i <;> simp [ignoredMask]
  simp only [opNibble, BitVec.extractLsb'_and, keeps, nibble_and_ones]

/-! ### Decoding and encoding -/

/-- Each constructor's operands stand in its word where `decode` reads them. -/
theorem decode_encode (i : Instr) : decode (encode i) = i := by
  cases i <;> simp [encode, decode]

/-- A word with its instruction's ignored nibbles cleared is the instruction's word. -/
theorem masked_eq_encode_decode (w : Word) : w &&& ~~~ignoredMask (decode w) = encode (decode w) := by
  unfold decode
  split
  case h_2 opcode | h_3 opcode | h_4 opcode | h_12 opcode | h_14 opcode => exact masked_formRXY opcode
  case h_6 opcode | h_7 opcode | h_8 opcode | h_9 opcode | h_10 opcode => exact masked_formRST opcode
  case h_5 opcode => exact masked_form0RS opcode
  case h_11 opcode => exact masked_formR0X opcode
  case h_1 opcode | h_13 opcode | h_15 opcode => exact masked_formBare opcode
  case h_16 =>
    have bound := (opNibble w).isLt
    have opcode : (opNibble w).toNat = 15 := by grind
    exact masked_formBare opcode

/-- From right to left: both words have the one opcode, so both instructions ignore the same nibbles and have the same word. -/
theorem decode_eq_iff (w : Word) (i : Instr) : decode w = i ↔ w &&& ~~~ignoredMask i = encode i := by
  constructor
  · rintro rfl
    exact masked_eq_encode_decode w
  · intro masked
    have sameOpcode : opNibble w = opNibble (encode i) := by rw [← masked, opNibble_masked]
    have sameMask : ignoredMask (decode w) = ignoredMask i := by
      rw [ignoredMask_congr sameOpcode, decode_encode]
    have sameWord : encode (decode w) = encode i := by
      rw [← masked_eq_encode_decode, sameMask, masked]
    rw [← decode_encode (decode w), sameWord, decode_encode]

/-! ### The ignored nibbles -/

/-- Two words that agree outside the ignored nibbles decode alike (D7). -/
theorem decode_eq_of_or_ignoredMask {w v : Word}
    (agree : w ||| ignoredMask (decode w) = v ||| ignoredMask (decode w)) : decode v = decode w := by
  have clear_or : ∀ u m : Word, (u ||| m) &&& ~~~m = u &&& ~~~m := by
    simp [BitVec.and_or_distrib_right]
  rw [decode_eq_iff, ← clear_or, ← agree, clear_or, masked_eq_encode_decode]

/-- No instruction reads or writes `ir` (R61). -/
theorem exec_setIr {i : Instr} {s t : State} (effect : exec i s = .next t) (w : Word) :
    exec i (setIr w s) = .next (setIr w t) := by
  cases i <;> cases effect <;> rfl

/-! ### The opcode map (R55) -/

/-- The one row a word is of, with the word's opcode. -/
theorem row_of_word (w : Word) : ∃ row : OpcodeRow, opcodeMap.filter (fun r => r.covers w) = [row] ∧
    row ∈ opcodeMap ∧ row.op = opNibble w := by
  obtain ⟨row, only⟩ := List.length_eq_one_iff.mp (one_row_of_opcode (opNibble w))
  have found : row ∈ opcodeMap.filter (fun r => r.op == opNibble w) := by simp [only]
  rw [List.mem_filter, beq_iff_eq] at found
  exact ⟨row, (rows_of_word w).trans only, found⟩

/-- A row's mnemonic is that of every word of its opcode. -/
theorem mnemonic_of_row {row : OpcodeRow} (listed : row ∈ opcodeMap) {w : Word} (opcode : row.op = opNibble w) :
    row.mnemonic = (decode w).mnemonic := by
  have named : ∀ r ∈ opcodeMap, r.mnemonic = (decode (wordOfNibbles r.op 0 0 0)).mnemonic := by decide
  rw [named row listed]
  exact mnemonic_congr (by rw [opNibble_wordOfNibbles, opcode])

theorem op_eq_of_mnemonic_eq :
    ∀ p ∈ opcodeMap, ∀ q ∈ opcodeMap, p.mnemonic = q.mnemonic → p.op = q.op := by
  decide

/-! ### The statements -/

/-- Settles O2: `decode` reads each operand from where `encode` writes it. -/
theorem decodeEncodeRoundTrip : Obligations.DecodeEncodeRoundTrip := decode_encode

/-- Settles O3: a word is its instruction's word outside the ignored nibbles, and the opcode, never ignored, says which these are. -/
theorem decodeReadsExactlyTheBitsWithARole : Obligations.DecodeReadsExactlyTheBitsWithARole := decode_eq_iff

/-- Settles O4: the opcode decides the mnemonic, and the rows of two words with one mnemonic have one opcode. -/
theorem opcodeBitsAloneSelectTheOperation : Obligations.OpcodeBitsAloneSelectTheOperation := by
  intro w v
  refine ⟨fun sameName => ?_, mnemonic_congr⟩
  obtain ⟨p, -, listedP, opcodeP⟩ := row_of_word w
  obtain ⟨q, -, listedQ, opcodeQ⟩ := row_of_word v
  have sameRowName : p.mnemonic = q.mnemonic := by
    rw [mnemonic_of_row listedP opcodeP, mnemonic_of_row listedQ opcodeQ, sameName]
  calc opNibble w = p.op := opcodeP.symm
    _ = q.op := op_eq_of_mnemonic_eq p listedP q listedQ sameRowName
    _ = opNibble v := opcodeQ

/-- Settles O5: the row of the word's opcode, whose mnemonic is the instruction's. -/
theorem everyWordMatchesOneOpcodeRow : Obligations.EveryWordMatchesOneOpcodeRow := by
  intro w
  obtain ⟨row, only, listed, opcode⟩ := row_of_word w
  exact ⟨row, only, opcode, mnemonic_of_row listed opcode⟩

/-- Settles O6: one arm of `decode` for each clause, which the clause's opcode selects. -/
theorem operandFormsPlaceTheirNibbles : Obligations.OperandFormsPlaceTheirNibbles := by
  intro w
  refine ⟨?_, ?_, ?_, ?_, ?_, ?_, ?_, ?_, ?_, ?_, ?_, ?_, ?_, ?_, ?_, ?_⟩ <;>
    (intro opcode; simp only [decode, opNibble, opcode]; rfl)

/-- Settles O9: both words decode alike, and the instruction's effect is the same whatever word `ir` holds. -/
theorem ignoredNibblesDoNotChangeTheStep : Obligations.IgnoredNibblesDoNotChangeTheStep := by
  intro w v s running agree
  obtain ⟨t, accepted, ir, -⟩ := execute_effect w running
  have acceptedV : execute v s = .next (setIr v t) := by
    rw [execute_running w running] at accepted
    rw [execute_running v running, decode_eq_of_or_ignoredMask agree]
    exact exec_setIr accepted v
  exact ⟨t, setIr v t, accepted, acceptedV, ⟨rfl, rfl, rfl, rfl, rfl, rfl⟩, ir, rfl⟩

/-- Settles O1: `decode` evaluated on each of the eleven words. -/
theorem sampleWordsDecodeAsTheSpecWritesThem : Obligations.SampleWordsDecodeAsTheSpecWritesThem := by
  unfold Obligations.SampleWordsDecodeAsTheSpecWritesThem
  decide

end Sys2Proof

/-! SUPPORT. The engine and its dispatch (40_engine_dispatch.md): the word a step runs, what the unassigned opcodes do, `pc` after every
instruction, what a handler reads, and that HALTED is final. -/

namespace Sys2Proof

open Sys2Proof.Machine

/-! ### The program counter (R62, R81) -/

/-- The advance on naturals, with the wrap at 0xFF (D2). -/
theorem toNat_advancePc (pc : Byte) : (advancePc pc).toNat = (pc.toNat + 1) % 256 :=
  BitVec.toNat_add pc 1

/-- A jump's `pc`: the target where it is taken, else the advance (R81). -/
theorem toNat_pc_jump (s : State) (taken : Bool) (target : Byte) :
    (commit (answerJump s taken target) s).pc.toNat = if taken then target.toNat else (s.pc.toNat + 1) % 256 := by
  cases taken with
  | true => rfl
  | false => exact toNat_advancePc s.pc

/-- JEQ's condition (R82). -/
theorem isEqual_iff (a b : Byte) : isEqual a b = true ↔ a = b := beq_iff_eq

/-- JGT's condition, unsigned (R84). -/
theorem isGreaterUnsigned_iff (a b : Byte) : isGreaterUnsigned a b = true ↔ b.toNat < a.toNat :=
  decide_eq_true_iff

/-! ### The unassigned opcodes (R64 to R66) -/

/-- The no-op's answer leaves all but `pc` (R61). -/
theorem onlyPcStep_nothing (s : State) : OnlyPcStep s (commit (answerNothing s) s) :=
  ⟨fun _ => rfl, fun _ => rfl, rfl, rfl, rfl, rfl⟩

/-- All three opcodes have the no-op's handler. -/
theorem exec_unassigned {i : Instr} (s : State) (unassigned : i = .nop0 ∨ i = .nope ∨ i = .nopf) :
    exec i s = .next (commit (answerNothing s) s) := by
  obtain rfl | rfl | rfl := unassigned <;> rfl

/-! ### What a handler reads (R61) -/

/-- The register written and its value come from the storages and `FloatAdd` alone. -/
theorem regWriteOf_congr (i : Instr) {s s' : State} (regs : s.x = s'.x) (mem : s.mem = s'.mem)
    (floatAdd : s.floatAdd = s'.floatAdd) : regWriteOf i s = regWriteOf i s' := by
  simp only [regWriteOf, readReg, readMem, regs, mem, floatAdd]

/-- The byte stored and its address come from the registers alone. -/
theorem memWriteOf_congr (i : Instr) {s s' : State} (regs : s.x = s'.x) : memWriteOf i s = memWriteOf i s' := by
  simp only [memWriteOf, readReg, regs]

/-- Every instruction's effect in one equation each for the registers, the memory and `run`. -/
theorem exec_storages_run (i : Instr) (s : State) :
    ∃ t, exec i s = .next t ∧
      t.x = (regWriteOf i s).elim s.x (fun p => s.x.write (regIndex p.1) p.2) ∧
      t.mem = (memWriteOf i s).elim s.mem (fun p => s.mem.write (byteAddr p.1) p.2) ∧
      t.run = if i = .halt then .halted else s.run := by
  obtain ⟨t, effect, regs, mem⟩ := exec_storages i s
  obtain ⟨u, effect', -, run, -⟩ := exec_effect i s
  cases effect.symm.trans effect'
  exact ⟨t, effect, regs, mem, run⟩

/-! ### The word a step runs (R32, R60) -/

/-- A running core with a next word executes it, the source being afterwards the one without that word. -/
theorem step_of_nextWord {s : State} {w : Word} {src : InstrSource} (running : s.run = .running)
    (fetched : nextWord s.source s.pc = some (w, src)) :
    step s = exec (decode w) (setIr w (setSource src s)) := by
  simp [step, driverStep, running, fetched, execute_running]

theorem setSource_of_eq {s : State} {src : InstrSource} (same : s.source = src) : setSource src s = s := by
  subst same
  rfl

/-! ### HALTED (R63) -/

theorem step_halted {s : State} (halted : s.run = .halted) : step s = .fault .halted :=
  (stepStopsOnlyAtTheEndOfARun s).1.mpr (runEnd_halted halted)

theorem executeAll_halted (ws : List Word) {s : State} (halted : s.run = .halted) : executeAll ws s = s := by
  induction ws with
  | nil => rfl
  | cons w ws ih => rw [executeAll, hostExecute_halted w halted, ih]

/-! ### The statements -/

/-- Settles O34: HALT leaves `pc`, a jump's condition is the comparison of its two registers, everything else advances. -/
theorem programCounterAfterEveryInstruction : Obligations.ProgramCounterAfterEveryInstruction := by
  intro i s
  cases i with
  | halt => exact ⟨_, rfl, rfl⟩
  | jeq r xy => exact ⟨_, rfl, (toNat_pc_jump s _ _).trans (if_congr (isEqual_iff _ _) rfl rfl)⟩
  | jgt r xy => exact ⟨_, rfl, (toNat_pc_jump s _ _).trans (if_congr (isGreaterUnsigned_iff _ _) rfl rfl)⟩
  | _ => exact ⟨_, rfl, toNat_advancePc s.pc⟩

/-- Settles O40: a Rejected call gives the state back, so each further call does, and the first step already stops. -/
theorem haltedIsFinal : Obligations.HaltedIsFinal := fun s halted =>
  ⟨fun ws => executeAll_halted ws halted, fun k => by rw [runSteps, step_halted halted]⟩

/-- Settles O45: the writes to the storages are computed from the storages and `FloatAdd`, and HALT alone changes `run`. -/
theorem handlersReadOnlyTheStorages : Obligations.HandlersReadOnlyTheStorages := by
  intro i s s' sameRegs sameMem sameFloatAdd
  obtain ⟨t, effect, regs, mem, run⟩ := exec_storages_run i s
  obtain ⟨t', effect', regs', mem', run'⟩ := exec_storages_run i s'
  refine ⟨t, t', effect, effect', ?_, ?_, fun sameRun => ?_⟩
  · rw [regs, regs', regWriteOf_congr i sameRegs sameMem sameFloatAdd, sameRegs]
  · rw [mem, mem', memWriteOf_congr i sameRegs, sameMem]
  · rw [run, run', sameRun]

/-- Settles O33: the three opcodes have the no-op's answer. -/
theorem unassignedOpcodesOnlyAdvance : Obligations.UnassignedOpcodesOnlyAdvance := fun _ s unassigned =>
  ⟨_, exec_unassigned s unassigned, onlyPcStep_nothing s, toNat_advancePc s.pc⟩

/-- Settles O37: a stream's first pending word or the store's word at `pc` is the next word, and a store stays as it is. -/
theorem stepRunsTheDecodedInstruction : Obligations.StepRunsTheDecodedInstruction := by
  refine fun s w running => ⟨fun passed ws stream => ?_, fun prog store fetch => ?_⟩
  · have fetched : nextWord s.source s.pc = some (w, .stream (passed ++ [w]) ws) := by rw [stream]; rfl
    exact step_of_nextWord running fetched
  · have fetched : nextWord s.source s.pc = some (w, .pcIndexed prog) := by
      rw [store, nextWord_pcIndexed fetch]
    rw [step_of_nextWord running fetched, setSource_of_eq store]
    rfl

end Sys2Proof

/-! SUPPORT. Data movement (41_data_movement.md): the two kinds of answer that write a cell, each with its whole frame, and what every
instruction leaves in each register and each byte. -/

namespace Sys2Proof

open Sys2Proof.Machine

/-! ### The answers that write one cell (R61) -/

/-- An advance below 0xFF is `pc + 1`, without the wrap (R62). -/
theorem advanced_of_advancePc {s t : State} (pc : t.pc = advancePc s.pc) : Advanced s t := by
  intro below
  rw [pc, toNat_advancePc]
  omega

/-- The answer that writes a register: the value, and the whole frame. -/
theorem registerStep_answerReg (s : State) (r : Nib) (v : Byte) :
    RegisterStep s (commit (answerReg s r v) s) r v := by
  refine ⟨?_, fun q other => ?_, fun _ => rfl, advanced_of_advancePc rfl, rfl, rfl, rfl, rfl⟩
  · simp [readReg]
  · simp [readReg, other]

/-- The answer that writes a byte of memory: the value, and the whole frame. -/
theorem memoryStep_answerByte (s : State) (xy v : Byte) :
    MemoryStep s (commit (answerByte s xy v) s) (byteAddr xy) v := by
  refine ⟨?_, fun b other => ?_, fun _ => rfl, advanced_of_advancePc rfl, rfl, rfl, rfl, rfl⟩
  · simp [readMem]
  · simp [readMem, other]

/-- A register written with the value it holds leaves every register as it was. -/
theorem sameRegs_of_registerStep {s t : State} {r : Nib} (written : RegisterStep s t r (readReg s r)) :
    SameRegs s t := by
  obtain ⟨value, others, -⟩ := written
  intro q
  by_cases here : q = r
  · rw [here, value]
  · exact others q here

/-! ### The cells after every instruction (R15, R38) -/

/-- STORE is the one instruction with an entry in R38's table, and it has none in R15's. -/
theorem regWriteOf_or_memWriteOf_eq_none (i : Instr) (s : State) :
    regWriteOf i s = none ∨ memWriteOf i s = none := by
  cases i with
  | store r xy => exact .inl rfl
  | _ => exact .inr rfl

/-! ### The statements -/

/-- Settles O16: LOADM's answer writes the register with the byte at XY. -/
theorem loadDirectLoadsTheByte : Obligations.LoadDirectLoadsTheByte := fun r _ s =>
  ⟨_, rfl, registerStep_answerReg s r _⟩

/-- Settles O17: LOADI's answer writes the register with XY. -/
theorem loadImmediateLoadsTheByte : Obligations.LoadImmediateLoadsTheByte := fun r xy s =>
  ⟨_, rfl, registerStep_answerReg s r xy⟩

/-- Settles O18: STORE's answer writes the byte at XY with the register. -/
theorem storeWritesTheRegisterToMemory : Obligations.StoreWritesTheRegisterToMemory := fun r xy s =>
  ⟨_, rfl, memoryStep_answerByte s xy (readReg s r), rfl⟩

/-- Settles O19: MOVE's answer writes the destination with the source, which is its own value where the two are one. -/
theorem moveCopiesTheFirstRegisterToTheSecond : Obligations.MoveCopiesTheFirstRegisterToTheSecond := by
  intro r d s
  have copied := registerStep_answerReg s d (readReg s r)
  refine ⟨_, rfl, copied, fun same => ?_⟩
  subst same
  exact sameRegs_of_registerStep copied

/-- Settles O35: the storages afterwards are the old ones with the tables' writes, read cell by cell. -/
theorem everyInstructionWritesAtMostItsOneCell : Obligations.EveryInstructionWritesAtMostItsOneCell := by
  intro i s
  obtain ⟨t, effect, regs, mem⟩ := exec_storages i s
  refine ⟨t, effect, fun q => ?_, fun a => ?_, regWriteOf_or_memWriteOf_eq_none i s⟩
  · cases written : regWriteOf i s with
    | none => simp [readReg, regs, written]
    | some p =>
      rw [readReg, regs, written]
      exact read_write_reg s.x q p.1 p.2
  · cases written : memWriteOf i s with
    | none => simp [readMem, mem, written]
    | some p =>
      rw [readMem, mem, written]
      exact read_write_byte s.mem p.1 a p.2

end Sys2Proof

/-! SUPPORT. Arithmetic and logic (42_arith_logic.md): the register instructions 5 to A, each with its whole frame, and the default float
format: what a byte is worth, and that encoding gives the largest value held that is not larger. -/

namespace Sys2Proof

open Sys2Proof.Machine

/-! ### The instructions that write a register (R15) -/

/-- An instruction with an entry in R15's table answers the entry's value in its register, and the whole frame. -/
theorem exec_of_regWriteOf {i : Instr} {s : State} {r : Nib} {v : Byte} (entry : regWriteOf i s = some (r, v)) :
    ∃ t, exec i s = .next t ∧ readReg t r = v ∧ RegisterStep s t r (readReg t r) := by
  suffices ∃ t, exec i s = .next t ∧ RegisterStep s t r v by
    obtain ⟨t, effect, written⟩ := this
    have value : readReg t r = v := written.1
    exact ⟨t, effect, value, value.symm ▸ written⟩
  cases i with
  | ror q x =>
    cases entry
    exact ⟨_, rfl, rotr8_eq_rotateRight _ _ ▸ registerStep_answerReg s r _⟩
  | loadm | loadi | move | addi | addf | or | and | xor =>
    cases entry
    exact ⟨_, rfl, registerStep_answerReg s r _⟩
  | nop0 | store | jeq | halt | jgt | nope | nopf => cases entry

/-- R80's bit rule: rotating right by `n` brings bit `(i + n) mod 8` to bit `i`. -/
theorem getLsbD_rotateRight_byte (v : Byte) (n : Nat) {i : Nat} (bit : i < 8) :
    (v.rotateRight n).getLsbD i = v.getLsbD ((i + n) % 8) := by
  rw [BitVec.getLsbD_rotateRight]
  by_cases low : i < 8 - n % 8
  · have source : (i + n) % 8 = n % 8 + i := by omega
    simp [low, source]
  · have source : (i + n) % 8 = i - (8 - n % 8) := by omega
    simp [low, source, bit]

/-- A count that is a multiple of 8 rotates nothing (R80). -/
theorem rotateRight_of_mod_eq_zero (v : Byte) {n : Nat} (whole : n % 8 = 0) : v.rotateRight n = v := by
  rw [← rotr8_eq_rotateRight, rotr8, if_pos whole]

/-- No step changes the parameter `FloatAdd` (R75). -/
theorem step_floatAdd {s t : State} (reached : step s = .next t) : t.floatAdd = s.floatAdd := by
  obtain ⟨w, src, h, -, -, rfl⟩ := step_next reached
  simp

/-! ### The fields of a float (R72) -/

theorem floatMantissa_le (b : Byte) : floatMantissa b ≤ 15 := Nat.le_of_lt_succ (b.extractLsb' 0 4).isLt

theorem floatExponent_le (b : Byte) : floatExponent b ≤ 7 := Nat.le_of_lt_succ (b.extractLsb' 4 3).isLt

@[simp] theorem floatSign_floatByte (s : Bool) (e m : Nat) : floatSign (floatByte s e m) = s := by
  rw [floatSign, floatByte, BitVec.getLsbD_append, if_neg (by omega), BitVec.getLsbD_append, if_neg (by omega)]
  simp

theorem floatExponent_floatByte (s : Bool) {e : Nat} (m : Nat) (fits : e ≤ 7) :
    floatExponent (floatByte s e m) = e := by
  have field : (floatByte s e m).extractLsb' 4 3 = BitVec.ofNat 3 e := by
    rw [floatByte, BitVec.extractLsb'_append_eq_ite, dif_neg (by omega)]
    exact BitVec.extractLsb'_append_eq_right
  rw [floatExponent, field, BitVec.toNat_ofNat]
  omega

theorem floatMantissa_floatByte (s : Bool) (e : Nat) {m : Nat} (fits : m ≤ 15) :
    floatMantissa (floatByte s e m) = m := by
  rw [floatMantissa, floatByte, BitVec.extractLsb'_append_eq_right, BitVec.toNat_ofNat]
  omega

/-- The magnitude of a float in units: its mantissa scaled by its exponent. -/
theorem natAbs_floatUnits (b : Byte) : (floatUnits b).natAbs = floatMantissa b * 2 ^ floatExponent b := by
  cases sign : floatSign b <;> simp [floatUnits, sign, Int.natAbs_mul, Int.natAbs_pow]

/-- No float exceeds 7.5, which is 1920 units. -/
theorem natAbs_floatUnits_le (b : Byte) : (floatUnits b).natAbs ≤ 1920 :=
  calc (floatUnits b).natAbs
      = floatMantissa b * 2 ^ floatExponent b := natAbs_floatUnits b
    _ ≤ 15 * 2 ^ 7 := Nat.mul_le_mul (floatMantissa_le b) (Nat.pow_le_pow_right two_pos (floatExponent_le b))

/-- Flipping the sign bit negates the value and touches no other field. -/
theorem floatUnits_xor_sign (b : Byte) : floatUnits (b ^^^ 0x80) = -floatUnits b := by
  have sign : floatSign (b ^^^ 0x80) = !floatSign b := by simp [floatSign]
  have exponent : floatExponent (b ^^^ 0x80) = floatExponent b := by
    simp [floatExponent, BitVec.extractLsb'_xor]
  have mantissa : floatMantissa (b ^^^ 0x80) = floatMantissa b := by
    simp [floatMantissa, BitVec.extractLsb'_xor]
  rw [floatUnits, floatUnits, sign, exponent, mantissa]
  cases floatSign b <;> simp

/-- `FloatDecode` is `FloatUnits` over 256: the mantissa's 16 times the excess 4's `2^4` (R72). -/
theorem floatDecode_eq (b : Byte) : floatDecode b = (floatUnits b : Rat) / 256 := by
  have excess : (2 : Rat) ^ ((floatExponent b : Int) - 4) = 2 ^ floatExponent b / 16 := by
    rw [zpow_sub₀ two_ne_zero, zpow_natCast]
    norm_num
  rw [floatDecode, floatUnits, excess]
  push_cast
  ring

/-! ### The truncation (R73) -/

/-- Exponent `e` and mantissa `m` hold the largest magnitude that is not above `n`, in normalised form. -/
structure Truncates (n e m : Nat) : Prop where
  exponent_le : e ≤ 7
  mantissa_le : m ≤ 15
  le : m * 2 ^ e ≤ n
  largest : ∀ e' m', e' ≤ 7 → m' ≤ 15 → m' * 2 ^ e' ≤ n → m' * 2 ^ e' ≤ m * 2 ^ e
  normalised : 8 ≤ m ∨ e = 0

theorem truncates_zero : Truncates 0 0 0 where
  exponent_le := by omega
  mantissa_le := by omega
  le := by omega
  largest _ _ _ _ held := held
  normalised := .inr rfl

/-- Saturation: 7.5 is the largest value held. -/
theorem truncates_saturated {n : Nat} (large : 1920 ≤ n) : Truncates n 7 15 where
  exponent_le := by omega
  mantissa_le := by omega
  le := large
  largest _ _ he hm _ := Nat.mul_le_mul hm (Nat.pow_le_pow_right two_pos he)
  normalised := .inl (by omega)

/-- Below saturation: the exponent is the least with which the mantissa fits. -/
theorem leastExponent_spec {n : Nat} (small : n < 1920) :
    leastExponent n ≤ 7 ∧ n >>> leastExponent n ≤ 15 ∧ ∀ e < leastExponent n, 15 < n >>> e := by
  have fits : n >>> 7 ≤ 15 := by rw [Nat.shiftRight_eq_div_pow]; omega
  cases found : (List.range 8).find? (fun e => n >>> e ≤ 15) with
  | none =>
    have never := List.find?_eq_none.mp found 7 (by decide)
    simp [fits] at never
  | some e =>
    obtain ⟨mantissa, inRange, least⟩ := List.find?_range_eq_some.mp found
    rw [leastExponent, found, Option.getD_some]
    exact ⟨Nat.le_of_lt_succ (List.mem_range.mp inRange), by simpa using mantissa, by simpa using least⟩

/-- The shift by the least exponent keeps the most bits of `n` a mantissa can hold. -/
theorem truncates_leastExponent {n : Nat} (small : n < 1920) :
    Truncates n (leastExponent n) (n >>> leastExponent n) := by
  obtain ⟨exponent, mantissa, least⟩ := leastExponent_spec small
  generalize leastExponent n = e at *
  have full : e = 0 ∨ ∃ d, e = d + 1 ∧ 8 ≤ n >>> e := by
    cases e with
    | zero => exact .inl rfl
    | succ d =>
      have below := least d d.lt_succ_self
      refine .inr ⟨d, rfl, ?_⟩
      rw [Nat.shiftRight_succ]
      omega
  refine ⟨exponent, mantissa, ?_, fun e' m' _ hm held => ?_, full.symm.imp_left fun ⟨_, _, h⟩ => h⟩
  · rw [Nat.shiftRight_eq_div_pow]
    exact Nat.div_mul_le_self n (2 ^ e)
  · rcases le_or_gt e e' with coarser | finer
    · have split : m' * 2 ^ e' = m' * 2 ^ (e' - e) * 2 ^ e := by
        rw [mul_assoc, ← pow_add, Nat.sub_add_cancel coarser]
      rw [split] at held ⊢
      rw [Nat.shiftRight_eq_div_pow]
      exact Nat.mul_le_mul_right _ ((Nat.le_div_iff_mul_le (Nat.two_pow_pos e)).mpr held)
    · obtain rfl | ⟨d, rfl, large⟩ := full
      · omega
      · calc m' * 2 ^ e'
            ≤ 16 * 2 ^ d := Nat.mul_le_mul (by omega) (Nat.pow_le_pow_right two_pos (by omega))
          _ = 8 * 2 ^ (d + 1) := by ring
          _ ≤ n >>> (d + 1) * 2 ^ (d + 1) := Nat.mul_le_mul_right _ large

/-! ### `FloatEncode` (R73) -/

/-- The encoded byte has the sign of `k` and the truncation of its magnitude. -/
theorem floatEncode_eq (k : Int) :
    ∃ e m, Truncates k.natAbs e m ∧ floatEncode k = floatByte (decide (k < 0)) e m := by
  by_cases zero : k = 0
  · subst zero
    exact ⟨0, 0, truncates_zero, rfl⟩
  · by_cases large : 1920 ≤ k.natAbs
    · exact ⟨7, 15, truncates_saturated large, by simp [floatEncode, zero, large]⟩
    · exact ⟨_, _, truncates_leastExponent (not_le.mp large), by simp [floatEncode, zero, large]⟩

/-- What the encoded byte is worth, and its fields. -/
theorem floatEncode_fields (k : Int) :
    ∃ e m, Truncates k.natAbs e m ∧ floatExponent (floatEncode k) = e ∧ floatMantissa (floatEncode k) = m ∧
      floatUnits (floatEncode k) = (if k < 0 then -1 else 1) * ((m * 2 ^ e : Nat) : Int) := by
  obtain ⟨e, m, trunc, encoded⟩ := floatEncode_eq k
  have exponent := floatExponent_floatByte (decide (k < 0)) m trunc.exponent_le
  have mantissa := floatMantissa_floatByte (decide (k < 0)) e trunc.mantissa_le
  rw [encoded]
  refine ⟨e, m, trunc, exponent, mantissa, ?_⟩
  simp [floatUnits, exponent, mantissa]

theorem natAbs_floatUnits_floatEncode_le (k : Int) : (floatUnits (floatEncode k)).natAbs ≤ k.natAbs := by
  obtain ⟨e, m, trunc, exponent, mantissa, -⟩ := floatEncode_fields k
  rw [natAbs_floatUnits, exponent, mantissa]
  exact trunc.le

/-- No byte comes closer to `k` from the side of zero. -/
theorem natAbs_floatUnits_le_floatEncode {k : Int} {b : Byte} (held : (floatUnits b).natAbs ≤ k.natAbs) :
    (floatUnits b).natAbs ≤ (floatUnits (floatEncode k)).natAbs := by
  obtain ⟨e, m, trunc, exponent, mantissa, -⟩ := floatEncode_fields k
  rw [natAbs_floatUnits] at held
  rw [natAbs_floatUnits, natAbs_floatUnits, exponent, mantissa]
  exact trunc.largest _ _ (floatExponent_le b) (floatMantissa_le b) held

/-- The encoded value is not of the opposite sign. -/
theorem floatUnits_floatEncode_mul_nonneg (k : Int) : 0 ≤ floatUnits (floatEncode k) * k := by
  obtain ⟨e, m, -, -, -, units⟩ := floatEncode_fields k
  rw [units]
  split
  · exact mul_nonneg_of_nonpos_of_nonpos (by omega) (by omega)
  · exact mul_nonneg (by omega) (by omega)

/-- The encoded value is `k` as soon as its magnitude is. -/
theorem floatUnits_floatEncode_of_natAbs {k : Int} (kept : (floatUnits (floatEncode k)).natAbs = k.natAbs) :
    floatUnits (floatEncode k) = k := by
  obtain ⟨e, m, -, -, -, units⟩ := floatEncode_fields k
  generalize m * 2 ^ e = q at units
  split at units <;> omega

/-- Nothing but 0 is truncated to zero, since 0x01 holds the unit. -/
theorem eq_zero_of_floatUnits_floatEncode {k : Int} (zero : floatUnits (floatEncode k) = 0) : k = 0 := by
  by_contra nonzero
  have unit : floatUnits 0x01 = 1 := by decide
  have held := natAbs_floatUnits_le_floatEncode (k := k) (b := 0x01) (by omega)
  omega

/-- A value that some byte holds is kept. -/
theorem floatUnits_floatEncode_floatUnits (b : Byte) : floatUnits (floatEncode (floatUnits b)) = floatUnits b :=
  floatUnits_floatEncode_of_natAbs
    (le_antisymm (natAbs_floatUnits_floatEncode_le _) (natAbs_floatUnits_le_floatEncode le_rfl))

theorem floatEncode_normalised (k : Int) :
    8 ≤ floatMantissa (floatEncode k) ∨ floatExponent (floatEncode k) = 0 := by
  obtain ⟨e, m, trunc, rfl, rfl, -⟩ := floatEncode_fields k
  exact trunc.normalised

/-- Adding 0x00 encodes the value again (R74). -/
theorem floatAddDefault_zero (a : Byte) : floatAddDefault a 0x00 = floatEncode (floatUnits a) := by
  have zero : floatUnits 0x00 = 0 := by decide
  rw [floatAddDefault, zero, add_zero]

/-! ### The statements -/

/-- Settles O20: ADDI's entry is the sum of the two registers. -/
theorem addIntegerWrapsModulo256 : Obligations.AddIntegerWrapsModulo256 := by
  intro r a b s
  obtain ⟨t, effect, value, frame⟩ := exec_of_regWriteOf (i := .addi r a b) (s := s) rfl
  exact ⟨t, effect, value ▸ BitVec.toNat_add _ _, frame⟩

/-- Settles O21: ADDF's entry is the parameter's function of the two registers. -/
theorem addFloatWritesFloatAdd : Obligations.AddFloatWritesFloatAdd := by
  intro r a b s
  obtain ⟨t, effect, value, frame⟩ := exec_of_regWriteOf (i := .addf r a b) (s := s) rfl
  refine ⟨t, effect, frame, fun selected => ?_, fun selected => ?_⟩
  · rw [value, selected, floatAddOf, floatAddDefault]
  · rw [value, selected, floatAddOf]

/-- Settles O22: ADDF's entry reads the two operand bytes and the parameter, which no step changes. -/
theorem floatAddDependsOnItsOperandsAlone : Obligations.FloatAddDependsOnItsOperandsAlone := by
  refine ⟨fun r a b r' a' b' s s' sameFloatAdd sameFirst sameSecond => ?_, fun s t reached => step_floatAdd reached⟩
  obtain ⟨t, effect, value, -⟩ := exec_of_regWriteOf (i := .addf r a b) (s := s) rfl
  obtain ⟨t', effect', value', -⟩ := exec_of_regWriteOf (i := .addf r' a' b') (s := s') rfl
  exact ⟨t, t', effect, effect', by rw [value, value', sameFloatAdd, sameFirst, sameSecond]⟩

/-- Settles O23: OR's entry, bit by bit. -/
theorem orIsBitwise : Obligations.OrIsBitwise := by
  intro r a b s
  obtain ⟨t, effect, value, frame⟩ := exec_of_regWriteOf (i := .or r a b) (s := s) rfl
  exact ⟨t, effect, fun i _ => value ▸ BitVec.getLsbD_or, frame⟩

/-- Settles O24: AND's and XOR's entries, bit by bit (C10). -/
theorem andAndXorAreBitwise : Obligations.AndAndXorAreBitwise := by
  intro r a b s
  obtain ⟨t, effect, value, frame⟩ := exec_of_regWriteOf (i := .and r a b) (s := s) rfl
  obtain ⟨t', effect', value', frame'⟩ := exec_of_regWriteOf (i := .xor r a b) (s := s) rfl
  exact ⟨⟨t, effect, fun i _ => value ▸ BitVec.getLsbD_and, frame⟩,
    t', effect', fun i _ => value' ▸ BitVec.getLsbD_xor, frame'⟩

/-- Settles O25: ROR's entry is the register rotated, which moves each bit by R80's rule. -/
theorem rotateRightMovesEveryBit : Obligations.RotateRightMovesEveryBit := by
  intro r x s
  obtain ⟨t, effect, value, frame⟩ := exec_of_regWriteOf (i := .ror r x) (s := s) rfl
  refine ⟨t, effect, fun i bit => ?_, fun whole => ?_, frame⟩
  · rw [value, getLsbD_rotateRight_byte _ _ bit]
  · rw [value, rotateRight_of_mod_eq_zero _ whole]

/-- Settles O26: the powers of two cancel, and the bounds are those of the magnitude. -/
theorem floatDecodeIsUnitsOver256 : Obligations.FloatDecodeIsUnitsOver256 := by
  intro b
  have bound := natAbs_floatUnits_le b
  exact ⟨floatDecode_eq b, by omega, by omega⟩

/-- Settles O27: the encoded byte has the sign of `k` and the largest magnitude held that is not above its own. -/
theorem floatEncodeTruncatesTowardZero : Obligations.FloatEncodeTruncatesTowardZero := by
  intro k
  refine ⟨natAbs_floatUnits_floatEncode_le k, ?_, fun b => natAbs_floatUnits_le_floatEncode, fun b held => ?_⟩
  · exact floatUnits_floatEncode_mul_nonneg k
  · rw [← held, floatUnits_floatEncode_floatUnits]

/-- Settles O28: a truncation is normalised, and 0 alone is truncated to zero. -/
theorem floatEncodeIsNormalised : Obligations.FloatEncodeIsNormalised := by
  refine fun k => ⟨floatEncode_normalised k, fun zero => ?_⟩
  rw [eq_zero_of_floatUnits_floatEncode zero]
  rfl

/-- Settles O29: the sum of units commutes, 0x00 is worth nothing, and the sign bit negates; a saturated sum does not associate. -/
theorem defaultFloatAddLaws : Obligations.DefaultFloatAddLaws := by
  refine ⟨fun a b => ?_, fun a => ?_, fun a => ?_, 0x7F, 0x7F, 0xFF, by decide⟩
  · rw [floatAddDefault, floatAddDefault, add_comm]
  · rw [floatAddDefault_zero]
    exact ⟨floatUnits_floatEncode_floatUnits a, floatEncode_normalised _⟩
  · rw [floatAddDefault, floatUnits_xor_sign, add_neg_cancel]
    rfl

end Sys2Proof

/-! SUPPORT. Control transfer and HALT (43_control.md): a jump's answer with its whole frame, and HALT's effect in one equation. -/

namespace Sys2Proof

open Sys2Proof.Machine

/-! ### The answer of a jump (R81) -/

/-- A jump leaves all but `pc` (R61), taken or not. -/
theorem onlyPcStep_jump (s : State) (taken : Bool) (target : Byte) :
    OnlyPcStep s (commit (answerJump s taken target) s) :=
  ⟨fun _ => rfl, fun _ => rfl, rfl, rfl, rfl, rfl⟩

/-- `pc` after a jump whose Boolean test decides `condition`: the target where it holds, an advance where it does not. -/
theorem pc_jump_of_iff {taken : Bool} {condition : Prop} (decides : taken = true ↔ condition) (s : State)
    (target : Byte) :
    (condition → (commit (answerJump s taken target) s).pc = target) ∧
      (¬condition → Advanced s (commit (answerJump s taken target) s)) := by
  rw [← decides]
  cases taken with
  | true => exact ⟨fun _ => rfl, fun fails => absurd rfl fails⟩
  | false => exact ⟨nofun, fun _ => advanced_of_advancePc rfl⟩

/-! ### HALT (R83) -/

/-- HALT writes `run` alone (D3: `pc` stays). -/
theorem exec_halt (s : State) : exec .halt s = .next { s with run := .halted } := rfl

/-! ### The statements -/

/-- Settles O30: JEQ's test decides the equality of its two registers, which are one register where `R = 0`. -/
theorem jumpIfEqualComparesWithR0 : Obligations.JumpIfEqualComparesWithR0 := by
  intro r xy s
  obtain ⟨taken, untaken⟩ := pc_jump_of_iff (isEqual_iff (readReg s r) (readReg s 0)) s xy
  refine ⟨_, rfl, onlyPcStep_jump s _ xy, taken, untaken, fun isR0 => taken ?_⟩
  rw [isR0]

/-- Settles O31: JGT's test decides the unsigned comparison of its two registers, and no register is greater than itself. -/
theorem jumpIfGreaterComparesUnsigned : Obligations.JumpIfGreaterComparesUnsigned := by
  intro r xy s
  obtain ⟨taken, untaken⟩ := pc_jump_of_iff (isGreaterUnsigned_iff (readReg s r) (readReg s 0)) s xy
  refine ⟨_, rfl, onlyPcStep_jump s _ xy, taken, untaken, fun isR0 => untaken ?_⟩
  rw [isR0]
  exact lt_irrefl _

/-- Settles O32: HALT's effect is the state with `run` written, so every other part is the old one. -/
theorem haltSetsHaltedAndChangesNothingElse : Obligations.HaltSetsHaltedAndChangesNothingElse := fun s =>
  ⟨_, exec_halt s, rfl, rfl, fun _ => rfl, fun _ => rfl, rfl, rfl, rfl⟩

end Sys2Proof

/-! SUPPORT. Reset (70_reset_and_hazards.md R96, R97): the word a run from reset begins with, and what no run changes for `reset()`. -/

namespace Sys2Proof

open Sys2Proof.Machine

/-! ### The first word of a run from reset (R97) -/

/-- A rewound source passes the program's first word and keeps the program. -/
theorem nextWord_rewind_of_cons {src : InstrSource} {w : Word} {rest : List Word} (program : programOf src = w :: rest) :
    ∃ src', nextWord (rewind src) 0x00 = some (w, src') ∧ programOf src' = w :: rest := by
  have first : (nextWord (rewind src) 0x00).map (·.1) = some w := by rw [nextWord_rewind, program, List.head?_cons]
  obtain ⟨⟨_, src'⟩, fetched, rfl⟩ := Option.map_eq_some_iff.mp first
  exact ⟨src', fetched, by rw [(rewind_of_nextWord fetched).2, programOf_rewind, program]⟩

/-- A rewound source without a program has no word (D13, D19). -/
theorem nextWord_rewind_of_nil {src : InstrSource} (empty : programOf src = []) : nextWord (rewind src) 0x00 = none := by
  rw [← Option.map_eq_none_iff (f := (·.1)), nextWord_rewind, empty, List.head?_nil]

/-- A running core without a next word has ended its run Exhausted (R33). -/
theorem step_exhausted {s : State} (running : s.run = .running) (ended : nextWord s.source s.pc = none) :
    step s = .fault .exhausted :=
  (stepStopsOnlyAtTheEndOfARun s).2.1.mpr (by rw [runEnd_running running, if_pos ended])

/-- After construction the first step executes the first word of the program supplied. -/
theorem step_of_supplied {src src' : InstrSource} {w : Word} (fetched : nextWord src 0x00 = some (w, src')) :
    step (hostSupply src State.reset) = exec (decode w) { State.reset with ir := w, source := src' } :=
  step_of_nextWord (s := hostSupply src State.reset) reset_run fetched

/-! ### What a run leaves for `reset()` -/

/-- What every step keeps, a run of any number of steps keeps. -/
theorem runSteps_keeps {α : Type} {part : State → α} (kept : ∀ s t, step s = .next t → part t = part s) (k : Nat)
    {s t : State} (reached : runSteps k s = .next t) : part t = part s := by
  induction k generalizing s with
  | zero =>
    cases reached
    rfl
  | succ k ih =>
    cases stepped : step s with
    | next u =>
      have later : runSteps k u = .next t := by simpa only [runSteps, stepped] using reached
      rw [ih later, kept s u stepped]
    | fault r => simp [runSteps, stepped] at reached
    | refused r => simp [runSteps, stepped] at reached

/-- A step keeps the program and `FloatAdd`, which is all that `reset()` keeps. -/
theorem hostReset_of_step {s t : State} (reached : step s = .next t) : hostReset t = hostReset s := by
  obtain ⟨w, src, h, fetched, -, rfl⟩ := step_next reached
  exact hostReset_congr (rewind_of_nextWord fetched).1 rfl

/-! ### The statements -/

/-- Settles O10: the fields of R96's table, where a zeroed Storage reads 0x00 at every address. -/
theorem resetLeavesTheStateOfTheTable : Obligations.ResetLeavesTheStateOfTheTable := by
  rintro t (rfl | ⟨s, rfl⟩)
  · exact ⟨reset_run, rfl, rfl, read_zero 16, read_zero 256⟩
  · exact ⟨hostReset_run s, rfl, rfl, read_zero 16, read_zero 256⟩

/-- Settles O50: the source that `reset()` rewinds, and the one supplied after construction, has the program's first word next. -/
theorem firstStepAfterResetRunsTheFirstWord : Obligations.FirstStepAfterResetRunsTheFirstWord := by
  refine ⟨fun s => ⟨hostReset_pc s, fun w rest program => ?_, fun empty => ?_⟩, fun w rest => ⟨?_, ?_⟩⟩
  · obtain ⟨src, fetched, kept⟩ := nextWord_rewind_of_cons program
    exact ⟨src, kept, step_of_nextWord (hostReset_run s) fetched⟩
  · exact step_exhausted (hostReset_run s) (nextWord_rewind_of_nil empty)
  · exact step_of_supplied rfl
  · exact step_of_supplied rfl

/-- Settles O51: each step of the run keeps what `reset()` gives. -/
theorem resetForgetsTheRun : Obligations.ResetForgetsTheRun := fun k _ _ reached =>
  runSteps_keeps (fun _ _ => hostReset_of_step) k reached

end Sys2Proof

/-! SUPPORT. The state's form at reset and the placing of a word (10_state.md sections 1 and 9): what the next step runs once a word is
placed where it takes its word from (log 8). -/

namespace Sys2Proof

open Sys2Proof.Machine

/-! ### The step after a word is placed -/

/-- The placed word is the next one, whatever the source is afterwards. -/
theorem exists_nextWord_placeWord (src : InstrSource) (pc : Byte) (w : Word) :
    ∃ src', nextWord (placeWord src pc w) pc = some (w, src') := by
  obtain ⟨⟨_, src'⟩, fetched, rfl⟩ := Option.map_eq_some_iff.mp (nextWord_placeWord src pc w)
  exact ⟨src', fetched⟩

/-- Placing changes the source alone, so the step runs the placed word on the core state from before (`ir`: D4). -/
theorem step_withFetchWord {s : State} {nbits n : Nat} {src : InstrSource} (running : s.run = .running)
    (fetched : nextWord (placeWord s.source s.pc (tableWord nbits n)) s.pc = some (tableWord nbits n, src)) :
    step (s.withFetchWord nbits n) =
      exec (decode (tableWord nbits n)) { s with ir := tableWord nbits n, source := src } :=
  step_of_nextWord (s := s.withFetchWord nbits n) running fetched

/-- A word of at most 16 bits is the instruction of its word with the bits above them 0 (R58). -/
theorem decodeTableWord_eq {nbits : Nat} (n : Nat) (short : nbits ≤ 16) :
    decodeTableWord nbits n = some (decode (tableWord nbits n)) :=
  if_pos short

/-! ### The statements -/

/-- Settles O38: the placed word is the source's next one, before a stream's pending words. -/
theorem placedWordIsTheNextInstruction : Obligations.PlacedWordIsTheNextInstruction := by
  rintro s nbits n w running rfl
  refine ⟨?_, fun passed ws stream => ?_, decodeTableWord_eq n⟩
  · obtain ⟨src, fetched⟩ := exists_nextWord_placeWord s.source s.pc (tableWord nbits n)
    exact ⟨src, step_withFetchWord running fetched⟩
  · refine step_withFetchWord running ?_
    rw [stream]
    rfl

/-- Settles O13: canonical Storages that read alike list the same cells. -/
theorem canonicalStoragesThatReadAlikeAreEqual : Obligations.CanonicalStoragesThatReadAlikeAreEqual :=
  fun _ _ _ => storage_ext

/-- Settles O11: both storages are zeroed, and the source is the empty stream (R12; log 1). -/
theorem resetMeetsTheInvariant : Obligations.ResetMeetsTheInvariant :=
  ⟨wf_zero 256, wf_zero 16, rfl⟩

end Sys2Proof
